-- ==== Sys2Proof/Word.lean ====
section
/-! DEFINITION. The widths of the machine's values (00_scope.md R6, R8). Every value is unsigned.
Literals are written with their width, as in 0xF#4, in every file. -/

namespace Sys2Proof

/-- An 8-bit value: a general register, a timer, a byte of memory, an immediate `kk` (R6 REG_W, TIMER_W). -/
abbrev Byte := BitVec 8

/-- A 16-bit value: an opcode, pc, I, a stack entry (R6 PC_W, I_W, STACK_ENTRY_W). -/
abbrev Word := BitVec 16

/-- A 12-bit memory address, as in `nnn` (R6 ADDR_W). -/
abbrev Addr := BitVec 12

/-- A 4-bit register index, `x` or `y` (R11, R71). -/
abbrev RegIdx := BitVec 4

end Sys2Proof
end

