-- ==== Sys2Proof/Syntax.lean ====
section
/-! DEFINITION. The instruction set: one constructor per row of opcode_table.json, with the fields of
30_encoding.md R73 at the widths of R71. -/

namespace Sys2Proof

/-- R73: the 25 instructions. `x`, `y` are register indices, `kk` a byte, `nnn` an address (R11). -/
inductive Instr where
  | ldByte (x : RegIdx) (kk : Byte)
  | addByte (x : RegIdx) (kk : Byte)
  | ld (x y : RegIdx)
  | or (x y : RegIdx)
  | and (x y : RegIdx)
  | xor (x y : RegIdx)
  | add (x y : RegIdx)
  | sub (x y : RegIdx)
  | shr (x : RegIdx)
  | subn (x y : RegIdx)
  | shl (x : RegIdx)
  | rnd (x : RegIdx) (kk : Byte)
  | jp (nnn : Addr)
  | call (nnn : Addr)
  | jpV0 (nnn : Addr)
  | ret
  | seByte (x : RegIdx) (kk : Byte)
  | sneByte (x : RegIdx) (kk : Byte)
  | se (x y : RegIdx)
  | sne (x y : RegIdx)
  | ldi (nnn : Addr)
  | ldVxDelay (x : RegIdx)
  | ldDelayVx (x : RegIdx)
  /-- Recognised, unimplemented (43 R190). Carries `nnn` by decision D1 (log 3). -/
  | sys (nnn : Addr)
  /-- Recognised, unimplemented (43 R191). -/
  | cls
  deriving DecidableEq, Repr

end Sys2Proof
end

