-- ==== Sys2Proof/WellFormed.lean ====
section
/-! DEFINITION. Which terms of `Instr` are instructions the decoder can give. Every field is in range by
its type (30_encoding.md R71); the one check left is that of R75. -/

namespace Sys2Proof

/-- R75: the words 00E0 and 00EE are Cls and Ret, so `Sys` never carries 0E0 or 0EE (log 18). -/
def Instr.wellFormed : Instr → Bool
  | .sys nnn => nnn != 0x0E0#12 && nnn != 0x0EE#12
  | .ldByte _ _ | .addByte _ _ | .ld _ _ | .or _ _ | .and _ _ | .xor _ _ | .add _ _ | .sub _ _ | .shr _
  | .subn _ _ | .shl _ | .rnd _ _ | .jp _ | .call _ | .jpV0 _ | .ret | .seByte _ _ | .sneByte _ _
  | .se _ _ | .sne _ _ | .ldi _ | .ldVxDelay _ | .ldDelayVx _ | .cls => true

end Sys2Proof
end

