-- ==== Sys2Proof/Decode.lean ====
section
/-! DEFINITION. The opcode decoder (30_encoding.md R70 to R77), total on every word, and the encoder
written from the formats of R72. -/

namespace Sys2Proof

/-- R73: the decoder's output. A word of R77 is rejected under its own name, `unknown`. -/
inductive DecodeResult where
  | instr (i : Instr)
  | unknown (op : Word)
  deriving DecidableEq, Repr

/-! ### Field extraction (R71) -/

/-- `o = op[15:12]`. -/
def fieldO (op : Word) : BitVec 4 := op.extractLsb' 12 4
/-- `x = op[11:8]`. -/
def fieldX (op : Word) : RegIdx := op.extractLsb' 8 4
/-- `y = op[7:4]`. -/
def fieldY (op : Word) : RegIdx := op.extractLsb' 4 4
/-- `n = op[3:0]`. -/
def fieldN (op : Word) : BitVec 4 := op.extractLsb' 0 4
/-- `kk = op[7:0]`. -/
def fieldKK (op : Word) : Byte := op.extractLsb' 0 8
/-- `nnn = op[11:0]`. -/
def fieldNNN (op : Word) : Addr := op.extractLsb' 0 12

/-- R74, R75: group 0. The exact words 00E0 and 00EE come first (log 3). -/
def decodeGroup0 (op : Word) : DecodeResult :=
  if op = 0x00E0#16 then .instr .cls
  else if op = 0x00EE#16 then .instr .ret
  else .instr (.sys (fieldNNN op))

/-- R74: group 8. The `y` bits play no part in Shr and Shl (R76). -/
def decodeGroup8 (op : Word) : DecodeResult :=
  let x := fieldX op
  let y := fieldY op
  match fieldN op with
  | 0x0#4 => .instr (.ld x y)
  | 0x1#4 => .instr (.or x y)
  | 0x2#4 => .instr (.and x y)
  | 0x3#4 => .instr (.xor x y)
  | 0x4#4 => .instr (.add x y)
  | 0x5#4 => .instr (.sub x y)
  | 0x6#4 => .instr (.shr x)
  | 0x7#4 => .instr (.subn x y)
  | 0xE#4 => .instr (.shl x)
  | _ => .unknown op

/-- R74: group F, selected by the whole low byte. -/
def decodeGroupF (op : Word) : DecodeResult :=
  if fieldKK op = 0x07#8 then .instr (.ldVxDelay (fieldX op))
  else if fieldKK op = 0x15#8 then .instr (.ldDelayVx (fieldX op))
  else .unknown op

/-- R74: the decode function. -/
def decode (op : Word) : DecodeResult :=
  match fieldO op with
  | 0x0#4 => decodeGroup0 op
  | 0x1#4 => .instr (.jp (fieldNNN op))
  | 0x2#4 => .instr (.call (fieldNNN op))
  | 0x3#4 => .instr (.seByte (fieldX op) (fieldKK op))
  | 0x4#4 => .instr (.sneByte (fieldX op) (fieldKK op))
  | 0x5#4 => if fieldN op = 0x0#4 then .instr (.se (fieldX op) (fieldY op)) else .unknown op
  | 0x6#4 => .instr (.ldByte (fieldX op) (fieldKK op))
  | 0x7#4 => .instr (.addByte (fieldX op) (fieldKK op))
  | 0x8#4 => decodeGroup8 op
  | 0x9#4 => if fieldN op = 0x0#4 then .instr (.sne (fieldX op) (fieldY op)) else .unknown op
  | 0xA#4 => .instr (.ldi (fieldNNN op))
  | 0xB#4 => .instr (.jpV0 (fieldNNN op))
  | 0xC#4 => .instr (.rnd (fieldX op) (fieldKK op))
  | 0xD#4 => .unknown op
  | 0xE#4 => .unknown op
  | _ => decodeGroupF op

/-- R52: the opcode word of two bytes, the one at the lower address first (big-endian). -/
def wordOfBytes (b0 b1 : Byte) : Word := b0 ++ b1

/-- R52: the byte of a word at the lower address. -/
def highByte (op : Word) : Byte := op.extractLsb' 8 8

/-- R52: the byte of a word at the higher address. -/
def lowByte (op : Word) : Byte := op.extractLsb' 0 8

/-- The decoder on the two bytes of an opcode as memory holds them (R52, R70). -/
def decodeBytes (b0 b1 : Byte) : DecodeResult := decode (wordOfBytes b0 b1)

/-- The instruction word of which opcode_table.json gives `nbits` bits, numbered from its least
significant bit: the bits above `nbits` are 0. -/
def tableWord (nbits w : Nat) : Word := BitVec.ofNat 16 (w % 2 ^ nbits)

/-- What the decoder reads from a word given in the opcode table's numbering of bits, laid out as two
bytes in memory order; `none` where it rejects the word. -/
def decodeTableWord (nbits w : Nat) : Option Instr :=
  let op := tableWord nbits w
  match decodeBytes (highByte op) (lowByte op) with
  | .instr i => some i
  | .unknown _ => none

/-! ### The encoder (R72, R81) -/

/-- Format NNN. -/
def formatNNN (o : BitVec 4) (nnn : Addr) : Word := o ++ nnn
/-- Format XKK. -/
def formatXKK (o : BitVec 4) (x : RegIdx) (kk : Byte) : Word := (o ++ x : BitVec 8) ++ kk
/-- Format XYN; format X_N is this with `y` = 0 (R81; log 21). -/
def formatXYN (o : BitVec 4) (x y : RegIdx) (n : BitVec 4) : Word := (o ++ x : BitVec 8) ++ (y ++ n : BitVec 8)

/-- The word of an instruction, from the encoding column of R81 and the formats of R72. -/
def encode : Instr → Word
  | .ldByte x kk => formatXKK 0x6#4 x kk
  | .addByte x kk => formatXKK 0x7#4 x kk
  | .ld x y => formatXYN 0x8#4 x y 0x0#4
  | .or x y => formatXYN 0x8#4 x y 0x1#4
  | .and x y => formatXYN 0x8#4 x y 0x2#4
  | .xor x y => formatXYN 0x8#4 x y 0x3#4
  | .add x y => formatXYN 0x8#4 x y 0x4#4
  | .sub x y => formatXYN 0x8#4 x y 0x5#4
  | .shr x => formatXYN 0x8#4 x 0x0#4 0x6#4
  | .subn x y => formatXYN 0x8#4 x y 0x7#4
  | .shl x => formatXYN 0x8#4 x 0x0#4 0xE#4
  | .rnd x kk => formatXKK 0xC#4 x kk
  | .jp nnn => formatNNN 0x1#4 nnn
  | .call nnn => formatNNN 0x2#4 nnn
  | .jpV0 nnn => formatNNN 0xB#4 nnn
  | .ret => 0x00EE#16
  | .seByte x kk => formatXKK 0x3#4 x kk
  | .sneByte x kk => formatXKK 0x4#4 x kk
  | .se x y => formatXYN 0x5#4 x y 0x0#4
  | .sne x y => formatXYN 0x9#4 x y 0x0#4
  | .ldi nnn => formatNNN 0xA#4 nnn
  | .ldVxDelay x => formatXKK 0xF#4 x 0x07#8
  | .ldDelayVx x => formatXKK 0xF#4 x 0x15#8
  | .sys nnn => formatNNN 0x0#4 nnn
  | .cls => 0x00E0#16

/-- The bytes of an instruction in memory order (R52). -/
def encodeBytes (i : Instr) : List Byte := [highByte (encode i), lowByte (encode i)]

/-- The columns `match` and `mask` of an instruction's row of opcode_table.json. -/
def tableRow : Instr → Word × Word
  | .ldByte _ _ => (0x6000#16, 0xF000#16)
  | .addByte _ _ => (0x7000#16, 0xF000#16)
  | .ld _ _ => (0x8000#16, 0xF00F#16)
  | .or _ _ => (0x8001#16, 0xF00F#16)
  | .and _ _ => (0x8002#16, 0xF00F#16)
  | .xor _ _ => (0x8003#16, 0xF00F#16)
  | .add _ _ => (0x8004#16, 0xF00F#16)
  | .sub _ _ => (0x8005#16, 0xF00F#16)
  | .shr _ => (0x8006#16, 0xF00F#16)
  | .subn _ _ => (0x8007#16, 0xF00F#16)
  | .shl _ => (0x800E#16, 0xF00F#16)
  | .rnd _ _ => (0xC000#16, 0xF000#16)
  | .jp _ => (0x1000#16, 0xF000#16)
  | .call _ => (0x2000#16, 0xF000#16)
  | .jpV0 _ => (0xB000#16, 0xF000#16)
  | .ret => (0x00EE#16, 0xFFFF#16)
  | .seByte _ _ => (0x3000#16, 0xF000#16)
  | .sneByte _ _ => (0x4000#16, 0xF000#16)
  | .se _ _ => (0x5000#16, 0xF00F#16)
  | .sne _ _ => (0x9000#16, 0xF00F#16)
  | .ldi _ => (0xA000#16, 0xF000#16)
  | .ldVxDelay _ => (0xF007#16, 0xF0FF#16)
  | .ldDelayVx _ => (0xF015#16, 0xF0FF#16)
  | .sys _ => (0x0000#16, 0xF000#16)
  | .cls => (0x00E0#16, 0xFFFF#16)

end Sys2Proof
end

