-- ==== Sys2Proof/Config.lean ====
section
/-! DEFINITION. What an implementation fixes (00_scope.md R6) and the one free value of the spec
(42_index_timer_rnd.md R174). -/

namespace Sys2Proof.Config

/-- What Ret does on an empty stack: the parameter RET_ON_EMPTY (R6, D5, U1; log 7). -/
inductive RetOnEmpty where
  /-- No state change, outcome Done: the source's choice and the default. -/
  | inert
  /-- Outcome StackUnderflow, no state change. -/
  | fault
  deriving DecidableEq, Repr

/-- The two parameters of R6 a model takes as arguments. No step changes them. -/
structure Params where
  /-- STACK_DEPTH: `none` is the value `unbounded` (R6, D4, U3; log 6). -/
  stackDepth : Option Nat
  /-- RET_ON_EMPTY (log 7). -/
  retOnEmpty : RetOnEmpty
  deriving DecidableEq, Repr

/-- The defaults of R6 (log 20). -/
def Params.default : Params where
  stackDepth := some 16
  retOnEmpty := .inert

/-- LOAD_BASE (R6, R57, D10; log 17). -/
def loadBase : Word := 0x200#16

/-- The randomness source's k-th answer where no script supplies one: ANY byte (R174, D12; log 13).
It has no body, so nothing can be proved of its value. -/
opaque randByte : Nat → Byte

end Sys2Proof.Config
end

