-- ==== Sys2Proof/Machine/State.lean ====
section
/-! DEFINITION. The machine state (10_state.md), plain data, and its reset (10_state.md R31). -/

namespace Sys2Proof.Machine

/-- R29: memory as a list of the bytes that differ from 0x00, addresses strictly rising (log 1). -/
abbrev Memory := List Host.Cell

/-- R31: what an address that is not listed reads as: memory is zeroed at construction. -/
def Memory.unlisted : Byte := 0x00#8

/-- R33: the two spaces of the mux. -/
inductive Space where
  | reg
  | mem
  deriving DecidableEq, Repr

/-- The host's calls between steps: the mux of R33, the other paths of R35, the tick of 60 R213 and the
randomness source's answer of 60 R219. -/
inductive HostCall where
  | get (space : Space) (index : Nat)
  | set (space : Space) (index : Nat) (v : Byte)
  | getPC
  | setPC (v : Word)
  | setI (v : Word)
  | getDT
  | setDT (v : Byte)
  | getST
  | setST (v : Byte)
  | push (v : Word)
  | pop
  | timerTick
  /-- The randomness source readies its next answer (42 R174: a scripted source). -/
  | answerRnd (r : Byte)
  deriving DecidableEq, Repr

/-- Who takes a step: the driver, or the host with one call (60 R214, R219). -/
inductive Turn where
  | driver
  | host (c : HostCall)
  deriving DecidableEq, Repr

/-- What stands around the machine of R20 and is no register of it: the parameters and the inputs. -/
structure Env where
  /-- STACK_DEPTH and RET_ON_EMPTY (00 R6; log 20). -/
  params : Config.Params
  /-- The schedule, next turn first. When it is empty the driver moves (log 14). -/
  turns : List Turn
  /-- Answers the randomness source has ready, next one first (42 R174; log 13). -/
  rndScript : List Byte
  /-- How many draws have been made: the index of the free draw (42 R174; log 13). -/
  rndCount : Nat
  deriving DecidableEq, Repr

/-- R20: the machine state, and beside it the model's own `env`. -/
structure State where
  /-- R22: V0 to VF. -/
  V : Vector Byte 16
  /-- R24: the program counter. -/
  pc : Word
  /-- R25: the index register. -/
  I : Word
  /-- R26: the delay timer. -/
  DT : Byte
  /-- R27: the sound timer. -/
  ST : Byte
  /-- R28: return addresses, the top one first (log 19). -/
  stack : List Word
  /-- R29. -/
  mem : Memory
  env : Env
  deriving DecidableEq, Repr

/-- The non-`Done` outcomes of 60 R201. Each leaves the state as it was before the step (60 R202) and
stops the run (60 R220), so each is a fault of `step` (log 16). -/
inductive Fault where
  /-- Code 1. Raised by the driver's step for a word of 30 R77 (43 R192). Safe: it is the spec's outcome,
  and a driver that skips the word is a different driver (60 R220). -/
  | decodeFailure (op : Word)
  /-- Code 2. Raised by Sys and Cls (43 R190, R191). Safe: it is the spec's outcome. -/
  | unimplemented (ins : Instr)
  /-- Code 3. Raised by Call on a full stack, with the pc it would have pushed (41 R148), and by a host
  Push on a full stack (log 15). Safe: unbounded software goes on where this stops (D4). -/
  | stackOverflow (pc : Word)
  /-- Code 4. Raised by Ret on an empty stack when RET_ON_EMPTY = Fault (41 R149). Safe (D5). -/
  | stackUnderflow
  /-- Code 5. Raised by a host Get or Set with a bad index (10 R34). Safe (D18). -/
  | indexOutOfRange (space : Space) (index : Nat)
  deriving DecidableEq, Repr

/-- Why the model has no meaning for an instruction. -/
inductive Refusal where
  /-- Raised only by an arm of `exec` whose instruction has no meaning yet. Safe: the run stops. -/
  | notModelled (mnemonic : String)
  deriving DecidableEq, Repr

/-- The outcome type of an instruction, of a host call and of a step. -/
abbrev Result := Host.Outcome State Fault Refusal

/-- R31, 70 R240: the zeroed construction, for given parameters. pc = 0 by D9 (log 2). -/
def State.construct (p : Config.Params) : State where
  V := Vector.replicate 16 0x00#8
  pc := 0x0000#16
  I := 0x0000#16
  DT := 0x00#8
  ST := 0x00#8
  stack := []
  mem := []
  env := { params := p, turns := [], rndScript := [], rndCount := 0 }

/-- R31: the machine right after reset, with the default parameters of 00 R6. -/
def State.reset : State := State.construct Config.Params.default

/-- R32: the construction with the registers a test supplies. -/
def State.seeded (p : Config.Params) (V : Vector Byte 16) : State := { State.construct p with V := V }

end Sys2Proof.Machine
end

