-- ==== Sys2Proof/Machine/Ops.lean ====
section
/-! DEFINITION. The named operations over memory, registers, timers and stack that every meaning uses
(00_scope.md R9, 10_state.md R33 to R35), and the two ways an instruction ends (R9 `done`, `raise`). -/

namespace Sys2Proof.Machine

/-! ### Memory (20_memory.md) -/

/-- R9 `MemRead(addr, 1)`. -/
def Memory.read : Memory → Nat → Byte
  | [], _ => Memory.unlisted
  | (b, v) :: m, a => if a = b then v else Memory.read m a

/-- The memory with nothing listed at `a`. -/
def Memory.erase (m : Memory) (a : Nat) : Memory := m.filter fun c => decide (c.1 ≠ a)

/-- List a byte at `a`, before the first greater address. -/
def Memory.insert : Memory → Nat → Byte → Memory
  | [], a, v => [(a, v)]
  | (b, w) :: m, a, v => if a < b then (a, v) :: (b, w) :: m else (b, w) :: Memory.insert m a v

/-- R9 `MemWrite(addr, 1, v)`. Writing what an unlisted address reads as removes the entry. -/
def Memory.write (m : Memory) (a : Nat) (v : Byte) : Memory :=
  if v = Memory.unlisted then m.erase a else (m.erase a).insert a v

/-- R50: the number of memory bytes. -/
def memSize : Nat := 4096

/-- R33: the number of general registers. -/
def numRegs : Nat := 16

/-- The canonical form: addresses strictly rising and below 4096, no entry equal to what an unlisted
address reads as (log 1). -/
def Memory.wf (m : Memory) : Bool :=
  decide (m.Pairwise fun c d => c.1 < d.1) && m.all fun c => decide (c.1 < memSize) && decide (c.2 ≠ Memory.unlisted)

/-- R51: an address is reduced with `& 0xFFF` before the access. -/
def maskAddr (w : Word) : Addr := w.setWidth 12

/-! ### Field writes -/

/-- R22: read V[i]. -/
def State.reg (s : State) (i : RegIdx) : Byte := s.V[i.toNat]'i.isLt

/-- R22: `V[i] <- v`. No register is hard-wired. -/
def State.setReg (s : State) (i : RegIdx) (v : Byte) : State := { s with V := s.V.set i.toNat v i.isLt }

/-- R35 SetPC. -/
def State.setPC (s : State) (v : Word) : State := { s with pc := v }

/-- R35 SetI. -/
def State.setI (s : State) (v : Word) : State := { s with I := v }

/-- R35 SetDT. -/
def State.setDT (s : State) (v : Byte) : State := { s with DT := v }

/-- R35 SetST. -/
def State.setST (s : State) (v : Byte) : State := { s with ST := v }

/-- Replace the whole stack. -/
def State.setStack (s : State) (st : List Word) : State := { s with stack := st }

/-- Replace the whole memory. -/
def State.setMem (s : State) (m : Memory) : State := { s with mem := m }

/-- Replace what stands around the machine. -/
def State.setEnv (s : State) (e : Env) : State := { s with env := e }

/-- Replace the schedule. -/
def State.setTurns (s : State) (ts : List Turn) : State := s.setEnv { s.env with turns := ts }

/-- R23: VF is V[0xF]. -/
def regF : RegIdx := 0xF#4

/-! ### The two ends of an instruction (R9) -/

/-- R9: `done` ends the instruction with outcome Done. -/
def done (s : State) : Result := .next s

/-- R9: `raise` ends the instruction with a non-`Done` outcome. There is no trap entry: nothing is saved and
control goes nowhere (60 R209), and there is no return from one (60 R210). The state is the one before the
instruction (60 R202), so the outcome carries none. -/
def raise (f : Fault) : Result := .fault f

/-! ### Stack (10_state.md R28) -/

/-- 41 R148: `len(stack) == STACK_DEPTH`; never with `unbounded` (log 6). -/
def State.stackFull (s : State) : Bool :=
  match s.env.params.stackDepth with
  | some d => s.stack.length == d
  | none => false

/-- R9 `Push(v)`. -/
def State.push (s : State) (v : Word) : State := s.setStack (v :: s.stack)

/-- R9 `Pop()`'s effect on the stack; the entry it returns is the list's head. -/
def State.dropTop (s : State) : State := s.setStack s.stack.tail

/-- R20: `0 <= len(stack) <= STACK_DEPTH`. -/
def State.stackBounded (s : State) : Bool :=
  match s.env.params.stackDepth with
  | some d => decide (s.stack.length ≤ d)
  | none => true

/-! ### Program counter -/

/-- R24: `(pc + 2) mod 2^16` (D6; log 8): the skip of 41 R141 and the driver's advance of 60 R220. -/
def nextPC (pc : Word) : Word := pc + 2#16

/-- 41 R141: the skip primitive. A skip that is not taken changes nothing. -/
def State.skipIf (s : State) (c : Bool) : State := if c then s.setPC (nextPC s.pc) else s

/-! ### The randomness source (42_index_timer_rnd.md R174) -/

/-- The answer to the next draw: the next scripted one, else a free value (log 13). -/
def State.nextDraw (s : State) : Byte :=
  match s.env.rndScript with
  | r :: _ => r
  | [] => Config.randByte s.env.rndCount

/-- One draw consumed. -/
def State.consumeDraw (s : State) : State :=
  s.setEnv { s.env with rndScript := s.env.rndScript.tail, rndCount := s.env.rndCount + 1 }

/-! ### Timers (60_exceptions.md R213) -/

/-- A timer at 0 stays at 0 (G3; log 12). -/
def tickDown (t : Byte) : Byte := if t = 0#8 then 0#8 else t - 1#8

/-- R213 TimerTick: both timers in the same tick (D11; log 12). -/
def State.timerTick (s : State) : State := (s.setDT (tickDown s.DT)).setST (tickDown s.ST)

/-! ### Fetch (20_memory.md R53) -/

/-- The address of the opcode's first byte. -/
def fetchAddr0 (pc : Word) : Addr := maskAddr pc

/-- The address of the opcode's second byte, masked by itself (D7; log 9). -/
def fetchAddr1 (pc : Word) : Addr := maskAddr (pc + 1#16)

/-- R52, R53: the opcode word at pc. Reading has no side effect. -/
def State.fetch (s : State) : Word :=
  wordOfBytes (s.mem.read (fetchAddr0 s.pc).toNat) (s.mem.read (fetchAddr1 s.pc).toNat)

/-- The state with a word stored where the next fetch reads it. -/
def State.placeWord (s : State) (op : Word) : State :=
  s.setMem ((s.mem.write (fetchAddr0 s.pc).toNat (highByte op)).write (fetchAddr1 s.pc).toNat (lowByte op))

/-- The state with the driver to move next. -/
def State.withDriverNext (s : State) : State :=
  match s.env.turns with
  | [] => s
  | .driver :: _ => s
  | .host c :: ts => s.setTurns (.driver :: .host c :: ts)

end Sys2Proof.Machine
end

