-- ==== Sys2Proof/Machine/Flags.lean ====
section
/-! DEFINITION. Every flag computation (40_alu.md R102) and the write order of result and flag (R101). -/

namespace Sys2Proof.Machine

/-- R102: a flag is exactly 0x00 or 0x01. -/
def flagByte (c : Bool) : Byte := if c then 0x01#8 else 0x00#8

/-- R109: the carry of `vx + vy`, on the exact sum. -/
def carryFlag (vx vy : Byte) : Byte := flagByte (decide (vx.toNat + vy.toNat > 255))

/-- R110, R111: "not borrow" of `a - b`, by the strict test `a > b`. -/
def notBorrowFlag (a b : Byte) : Byte := flagByte (decide (a.toNat > b.toNat))

/-- R112: the bit a shift right loses: `vx & 0x01`. -/
def shiftOutRight (vx : Byte) : Byte := vx &&& 0x01#8

/-- R113: the bit a shift left loses: `(vx >> 7) & 0x01`. -/
def shiftOutLeft (vx : Byte) : Byte := (vx >>> 7) &&& 0x01#8

/-- R101: the result goes to V[x], then the flag to VF, last; with x = 0xF the flag stays and the result is
lost (the source says so of Add; of the other four by D3, log 5). -/
def State.setResultThenFlag (s : State) (x : RegIdx) (result flag : Byte) : State :=
  (s.setReg x result).setReg regF flag

end Sys2Proof.Machine
end

