-- ==== Sys2Proof/Machine/Operands.lean ====
section
/-! DEFINITION. Every operand form of the instruction set (30_encoding.md R79): a register read directly, an
unsigned byte used as is, an unsigned address zero-extended to 16 bits. There are no others. -/

namespace Sys2Proof.Machine

/-- R79: `x` and `y` select V[x] and V[y] directly; read before any write of the instruction (40 R100). -/
def operandReg (s : State) (i : RegIdx) : Byte := s.reg i

/-- R79: `kk` is used as is, with no extension, scaling or shift. -/
def operandByte (kk : Byte) : Byte := kk

/-- R79: `zext_16(nnn)`. -/
def operandAddr (nnn : Addr) : Word := nnn.setWidth 16

/-- 41 R147: the implicit register V0, widened. -/
def operandV0 (s : State) : Word := (s.reg 0x0#4).setWidth 16

/-- 41 R148, R149: `w & 0x0FFF` on a value that goes to pc. -/
def maskPC (w : Word) : Word := w &&& 0x0FFF#16

end Sys2Proof.Machine
end

