-- ==== Sys2Proof/Machine/Alu.lean ====
section
/-! DEFINITION. Register loads and arithmetic-logic instructions (40_alu.md). Operands are read from the state
the instruction starts in (R100); sums and differences are exact and then reduced mod 256 (R114). None of
them touches pc. -/

namespace Sys2Proof.Machine

/-- R114: `(a + b) mod 256`. -/
def addMod (a b : Byte) : Byte := BitVec.ofNat 8 (a.toNat + b.toNat)

/-- R110: `(a - b) mod 256`, that is `256 + (a - b)` when `a < b`. -/
def subMod (a b : Byte) : Byte := BitVec.ofNat 8 (256 + a.toNat - b.toNat)

/-- R112: `a >> 1`, zero-filled. -/
def shiftRight1 (a : Byte) : Byte := a >>> 1

/-- R113: `(a << 1) mod 256`. -/
def shiftLeft1 (a : Byte) : Byte := BitVec.ofNat 8 (2 * a.toNat)

/-- R103: `V[x] <- kk`. -/
def execLdByte (x : RegIdx) (kk : Byte) (s : State) : Result :=
  done (s.setReg x (operandByte kk))

/-- R104: `V[x] <- (vx + kk) mod 256`, no flag. -/
def execAddByte (x : RegIdx) (kk : Byte) (s : State) : Result :=
  done (s.setReg x (addMod (operandReg s x) (operandByte kk)))

/-- R105: `V[x] <- vy`. -/
def execLd (x y : RegIdx) (s : State) : Result :=
  done (s.setReg x (operandReg s y))

/-- R106: `V[x] <- vx | vy`, VF unmodified. -/
def execOr (x y : RegIdx) (s : State) : Result :=
  done (s.setReg x (operandReg s x ||| operandReg s y))

/-- R107: `V[x] <- vx & vy`, VF unmodified. -/
def execAnd (x y : RegIdx) (s : State) : Result :=
  done (s.setReg x (operandReg s x &&& operandReg s y))

/-- R108: `V[x] <- vx ^ vy`, VF unmodified. -/
def execXor (x y : RegIdx) (s : State) : Result :=
  done (s.setReg x (operandReg s x ^^^ operandReg s y))

/-- R109: the sum, then the carry in VF. -/
def execAdd (x y : RegIdx) (s : State) : Result :=
  let vx := operandReg s x
  let vy := operandReg s y
  done (s.setResultThenFlag x (addMod vx vy) (carryFlag vx vy))

/-- R110: `vx - vy`, then "not borrow" in VF. -/
def execSub (x y : RegIdx) (s : State) : Result :=
  let vx := operandReg s x
  let vy := operandReg s y
  done (s.setResultThenFlag x (subMod vx vy) (notBorrowFlag vx vy))

/-- R111: `vy - vx` into V[x], then "not borrow" in VF. -/
def execSubn (x y : RegIdx) (s : State) : Result :=
  let vx := operandReg s x
  let vy := operandReg s y
  done (s.setResultThenFlag x (subMod vy vx) (notBorrowFlag vy vx))

/-- R112: shift Vx right by one, then the lost bit in VF. -/
def execShr (x : RegIdx) (s : State) : Result :=
  let vx := operandReg s x
  done (s.setResultThenFlag x (shiftRight1 vx) (shiftOutRight vx))

/-- R113: shift Vx left by one, then the lost bit in VF. -/
def execShl (x : RegIdx) (s : State) : Result :=
  let vx := operandReg s x
  done (s.setResultThenFlag x (shiftLeft1 vx) (shiftOutLeft vx))

end Sys2Proof.Machine
end

