-- ==== Sys2Proof/Machine/Control.lean ====
section
/-! DEFINITION. Conditional skips, jumps, call and return (41_control.md). The pc they see is already past the
instruction (R140; log 10). -/

namespace Sys2Proof.Machine

/-- R142: skip if Vx equals Vy (the condition by G1; log 11). -/
def execSe (x y : RegIdx) (s : State) : Result :=
  done (s.skipIf (operandReg s x == operandReg s y))

/-- R143: skip if Vx does not equal Vy (G1; log 11). -/
def execSne (x y : RegIdx) (s : State) : Result :=
  done (s.skipIf (operandReg s x != operandReg s y))

/-- R144: skip if Vx equals kk (G1; log 11). -/
def execSeByte (x : RegIdx) (kk : Byte) (s : State) : Result :=
  done (s.skipIf (operandReg s x == operandByte kk))

/-- R145: skip if Vx does not equal kk (G1; log 11). -/
def execSneByte (x : RegIdx) (kk : Byte) (s : State) : Result :=
  done (s.skipIf (operandReg s x != operandByte kk))

/-- R146: `pc <- zext_16(nnn)`. -/
def execJp (nnn : Addr) (s : State) : Result :=
  done (s.setPC (operandAddr nnn))

/-- R147: `pc <- zext_16(nnn) + zext_16(v0)`, not masked. -/
def execJpV0 (nnn : Addr) (s : State) : Result :=
  done (s.setPC (operandAddr nnn + operandV0 s))

/-- R148: push the full 16-bit pc, then `pc <- zext_16(nnn) & 0x0FFF`; StackOverflow on a full stack (D4,
log 6). -/
def execCall (nnn : Addr) (s : State) : Result :=
  if s.stackFull then raise (.stackOverflow s.pc)
  else done ((s.push s.pc).setPC (maskPC (operandAddr nnn)))

/-- R149: `pc <- popped & 0x0FFF`; on an empty stack as RET_ON_EMPTY says (D5, log 7). -/
def execRet (s : State) : Result :=
  match s.stack with
  | [] =>
    match s.env.params.retOnEmpty with
    | .inert => done s
    | .fault => raise .stackUnderflow
  | r :: _ => done (s.dropTop.setPC (maskPC r))

end Sys2Proof.Machine
end

