-- ==== Sys2Proof/Machine/IndexTimerRnd.lean ====
section
/-! DEFINITION. Index register, delay timer and random byte (42_index_timer_rnd.md). None of them touches pc. -/

namespace Sys2Proof.Machine

/-- R170: `I <- zext_16(nnn)`. -/
def execLdi (nnn : Addr) (s : State) : Result :=
  done (s.setI (operandAddr nnn))

/-- R171: `V[x] <- DT`. -/
def execLdVxDelay (x : RegIdx) (s : State) : Result :=
  done (s.setReg x s.DT)

/-- R172: `DT <- V[x]`. -/
def execLdDelayVx (x : RegIdx) (s : State) : Result :=
  done (s.setDT (operandReg s x))

/-- R173: `V[x] <- r & kk` for a draw `r`. -/
def State.setMaskedDraw (s : State) (x : RegIdx) (r kk : Byte) : State :=
  s.setReg x (r &&& operandByte kk)

/-- R173: exactly one draw, also when kk = 0 (log 13). -/
def execRnd (x : RegIdx) (kk : Byte) (s : State) : Result :=
  done (s.consumeDraw.setMaskedDraw x s.nextDraw kk)

end Sys2Proof.Machine
end

