-- ==== Sys2Proof/Machine/Unimplemented.lean ====
section
/-! DEFINITION. Sys and Cls: recognised, unimplemented, and signalled as such (43_unimplemented.md). -/

namespace Sys2Proof.Machine

/-- R190: `raise Unimplemented(Sys(nnn))`; no state changes. -/
def execSys (nnn : Addr) (_ : State) : Result :=
  raise (.unimplemented (.sys nnn))

/-- R191: `raise Unimplemented(Cls)`; no state changes. -/
def execCls (_ : State) : Result :=
  raise (.unimplemented .cls)

end Sys2Proof.Machine
end

