-- ==== Sys2Proof/Machine/HostPorts.lean ====
section
/-! DEFINITION. The machine-state mux and the host's other paths (10_state.md R33 to R35), the timer tick and
the boot sequence as the host performs it (70_reset_and_hazards.md R242). -/

namespace Sys2Proof.Machine

/-- What a host call gives back to the host. -/
inductive HostAnswer where
  | none
  | byte (b : Byte)
  | word (w : Word)
  deriving DecidableEq, Repr

/-- R33, R34: `Get(space, index)`. -/
def muxGet (sp : Space) (index : Nat) (s : State) : Except Fault Byte :=
  match sp with
  | .reg => if index < numRegs then .ok (s.reg (BitVec.ofNat 4 index)) else .error (.indexOutOfRange .reg index)
  | .mem => if index < memSize then .ok (s.mem.read index) else .error (.indexOutOfRange .mem index)

/-- R33, R34: `Set(space, index, v)`. -/
def muxSet (sp : Space) (index : Nat) (v : Byte) (s : State) : Except Fault State :=
  match sp with
  | .reg => if index < numRegs then .ok (s.setReg (BitVec.ofNat 4 index) v) else .error (.indexOutOfRange .reg index)
  | .mem => if index < memSize then .ok (s.setMem (s.mem.write index v)) else .error (.indexOutOfRange .mem index)

/-- R35 Push by the host: as Call's push, so that the bound of R20 holds (log 15). -/
def hostPush (v : Word) (s : State) : Except Fault State :=
  if s.stackFull then .error (.stackOverflow v) else .ok (s.push v)

/-- R35 Pop by the host: on an empty stack nothing is popped (log 15). -/
def hostPop (s : State) : HostAnswer × State :=
  match s.stack with
  | [] => (.none, s)
  | r :: _ => (.word r, s.dropTop)

/-- 60 R219: the randomness source readies one more answer, given after those already waiting. -/
def State.answerRnd (s : State) (r : Byte) : State :=
  s.setEnv { s.env with rndScript := s.env.rndScript ++ [r] }

/-- One host call: the answer the host gets and the state after, or the fault of R34. -/
def hostCall (c : HostCall) (s : State) : Except Fault (HostAnswer × State) :=
  match c with
  | .get sp index => (muxGet sp index s).map fun b => (.byte b, s)
  | .set sp index v => (muxSet sp index v s).map fun t => (.none, t)
  | .getPC => .ok (.word s.pc, s)
  | .setPC v => .ok (.none, s.setPC v)
  | .setI v => .ok (.none, s.setI v)
  | .getDT => .ok (.byte s.DT, s)
  | .setDT v => .ok (.none, s.setDT v)
  | .getST => .ok (.byte s.ST, s)
  | .setST v => .ok (.none, s.setST v)
  | .push v => (hostPush v s).map fun t => (.none, t)
  | .pop => .ok (hostPop s)
  | .timerTick => .ok (.none, s.timerTick)
  | .answerRnd r => .ok (.none, s.answerRnd r)

/-- A host call as a step of its own (60 R214): its answer leaves the machine. -/
def hostStep (c : HostCall) (s : State) : Result :=
  match hostCall c s with
  | .ok (_, t) => done t
  | .error f => raise f

/-- R242 step 2: the loader's writes, from address `a` up. -/
def loadCalls : Nat → List Byte → List Turn
  | _, [] => []
  | a, b :: bs => .host (.set .mem a b) :: loadCalls (a + 1) bs

/-- R242 steps 2 and 3: load at LOAD_BASE, then `pc <- LOAD_BASE` (D10; log 17). -/
def bootTurns (rom : List Byte) : List Turn :=
  loadCalls Config.loadBase.toNat rom ++ [.host (.setPC Config.loadBase)]

/-- R242: a constructed machine whose host is about to boot it with `rom`. -/
def State.booting (p : Config.Params) (rom : List Byte) : State := (State.construct p).setTurns (bootTurns rom)

end Sys2Proof.Machine
end

