-- ==== Sys2Proof/Machine/Driver.lean ====
section
/-! DEFINITION. The reference driver step (60_exceptions.md R220) and whose turn it is (R214, R219). -/

namespace Sys2Proof.Machine

/-- R220: advance before execute (D8; log 10). -/
def State.advance (s : State) : State := s.setPC (nextPC s.pc)

/-- R220: fetch, decode, advance pc, execute. An Unknown word is not executed (43 R192). On a non-`Done`
outcome the run stops with the state before the step. -/
def driverStep (s : State) : Result :=
  match decode s.fetch with
  | .unknown op => raise (.decodeFailure op)
  | .instr i => exec i s.advance

/-- One step of the agent whose turn it is; the turn is spent (log 14). -/
def takeTurn (s : State) : Result :=
  match s.env.turns with
  | [] => driverStep s
  | .driver :: ts => driverStep (s.setTurns ts)
  | .host c :: ts => hostStep c (s.setTurns ts)

end Sys2Proof.Machine
end

