-- ==== Sys2Proof/Machine/Step.lean ====
section
/-! DEFINITION. The step function, and the state whose next step runs a given instruction word. -/

namespace Sys2Proof.Machine

/-- One step: an instruction step of the driver (60 R220) or one host action (60 R214). -/
def step (s : State) : Host.Outcome State Fault Refusal := takeTurn s

/-- `s` with the instruction word of `nbits` bits `w` where the next fetch reads it and the driver to move
(log 17). -/
def State.withFetchWord (s : State) (nbits w : Nat) : State := (s.placeWord (tableWord nbits w)).withDriverNext

end Sys2Proof.Machine
end

