-- ==== Sys2Proof/Safety.lean ====
section
/-! DEFINITION. What counts as a safe run, and the terms the claims are written in: outcome codes
(60_exceptions.md R201), the invariant of R20, and what a step leaves unchanged. -/

namespace Sys2Proof.Machine

/-! ### Outcomes (60 R201, R221) -/

/-- R201: the outcome codes (D14). Done is 0. -/
def Fault.code : Fault → Nat
  | .decodeFailure _ => 1
  | .unimplemented _ => 2
  | .stackOverflow _ => 3
  | .stackUnderflow => 4
  | .indexOutOfRange _ _ => 5

/-- R201: outcomes 3 and 5 are faults; 1, 2 and 4 are non-fatal. -/
def Fault.fatal (f : Fault) : Bool := f.code == 3 || f.code == 5

/-- R221: a run ends cleanly when its last outcome is Unimplemented(Sys(nnn)) (D19). -/
def Fault.endsCleanly : Fault → Bool
  | .unimplemented (.sys _) => true
  | _ => false

/-- R220, R221: `k` steps of a run; it ends at the first outcome that is not Done. -/
def run : Nat → State → Result
  | 0, s => .next s
  | k + 1, s =>
    match step s with
    | .next t => run k t
    | .fault f => .fault f
    | .refused r => .refused r

/-! ### The invariant -/

/-- Memory in canonical form and the stack within STACK_DEPTH (R20). -/
def State.Inv (s : State) : Prop := s.mem.wf = true ∧ s.stackBounded = true

/-- R25: bits 15 to 12 of I are 0. -/
def State.indexIsAddress (s : State) : Prop := s.I.toNat < 4096

/-! ### Whose turn it is -/

/-- The driver takes the next step. -/
def State.driverMoves (s : State) : Prop := ∀ c ts, s.env.turns ≠ .host c :: ts

/-- The state in which the driver's step starts: its turn is spent. -/
def State.turnSpent (s : State) : State := s.setTurns s.env.turns.tail

/-! ### Frames -/

/-- Every byte of memory reads as before. -/
def MemSame (s t : State) : Prop := ∀ a, t.mem.read a = s.mem.read a

/-- Nothing but the registers in `ws` differs. -/
def OnlyRegsChange (ws : List RegIdx) (s t : State) : Prop :=
  (∀ j, j ∉ ws → t.reg j = s.reg j) ∧ t.pc = s.pc ∧ t.I = s.I ∧ t.DT = s.DT ∧ t.ST = s.ST ∧
    t.stack = s.stack ∧ MemSame s t ∧ t.env = s.env

/-- No register and no byte of memory differs, nor I, a timer, or what stands around the machine. -/
def OnlyControlChanges (s t : State) : Prop :=
  (∀ j, t.reg j = s.reg j) ∧ t.I = s.I ∧ t.DT = s.DT ∧ t.ST = s.ST ∧ MemSame s t ∧ t.env = s.env

/-- Nothing but pc differs. -/
def OnlyPCChanges (s t : State) : Prop := OnlyControlChanges s t ∧ t.stack = s.stack

/-! ### Which instruction may write what (10 R36) -/

/-- The registers an instruction may write: its destination, and VF where R23 names it a flag writer. -/
def regWrites : Instr → List RegIdx
  | .ldByte x _ | .addByte x _ | .ld x _ | .or x _ | .and x _ | .xor x _ | .rnd x _ | .ldVxDelay x => [x]
  | .add x _ | .sub x _ | .subn x _ | .shr x | .shl x => [x, regF]
  | .jp _ | .call _ | .jpV0 _ | .ret | .seByte _ _ | .sneByte _ _ | .se _ _ | .sne _ _ | .ldi _
  | .ldDelayVx _ | .sys _ | .cls => []

/-- R36: the instructions that may write pc. -/
def mayWritePC : Instr → Bool
  | .se _ _ | .sne _ _ | .seByte _ _ | .sneByte _ _ | .jp _ | .jpV0 _ | .call _ | .ret => true
  | .ldByte _ _ | .addByte _ _ | .ld _ _ | .or _ _ | .and _ _ | .xor _ _ | .add _ _ | .sub _ _ | .shr _
  | .subn _ _ | .shl _ | .rnd _ _ | .ldi _ | .ldVxDelay _ | .ldDelayVx _ | .sys _ | .cls => false

end Sys2Proof.Machine
end

