-- ==== Sys2Proof/Certificates/Slice0/Obligations.lean ====
section
/-! DEFINITION. The statements for the provers. D<n>, G<n> are rows of 92_eei_decisions.md and
93_implementation_defined.md; "log n" is notes/assumptions/n.md. -/

open Sys2Proof Sys2Proof.Machine

/-! ### Encoding (30_encoding.md) -/

/-- 30 section 3 (R74), on words written out in 95_test_vectors.md section 2, one or more for every format. That
00E0 is Cls, 00EE Ret and Sys carries nnn is the spec's decision D1 (log 3); that D123, F133, 5121 and 8128 are
Unknown rests on its decision D2 (log 4). -/
def Obligations.ListedWordsDecodeAsGiven : Prop :=
  decode 0x0123#16 = .instr (.sys 0x123#12) ∧ decode 0x00E0#16 = .instr .cls ∧ decode 0x00EE#16 = .instr .ret ∧
  decode 0x1ABC#16 = .instr (.jp 0xABC#12) ∧ decode 0x3A42#16 = .instr (.seByte 0xA#4 0x42#8) ∧
  decode 0x5120#16 = .instr (.se 0x1#4 0x2#4) ∧ decode 0x7EFF#16 = .instr (.addByte 0xE#4 0xFF#8) ∧
  decode 0x8124#16 = .instr (.add 0x1#4 0x2#4) ∧ decode 0x817E#16 = .instr (.shl 0x1#4) ∧ decode 0xB123#16 = .instr (.jpV0 0x123#12) ∧
  decode 0xF107#16 = .instr (.ldVxDelay 0x1#4) ∧ decode 0xF115#16 = .instr (.ldDelayVx 0x1#4) ∧
  decode 0x5121#16 = .unknown 0x5121#16 ∧ decode 0x8128#16 = .unknown 0x8128#16 ∧ decode 0xD123#16 = .unknown 0xD123#16 ∧
  decode 0xF133#16 = .unknown 0xF133#16

/-- Decode and encode agree on every well-formed instruction, at every operand value (30 sections 1 to 3). -/
def Obligations.DecodeOfEncodeGivesInstructionBack : Prop :=
  ∀ i : Instr, i.wellFormed = true → decode (encode i) = .instr i

/-- A word that decodes is the word of its instruction, but for the bits 7 to 4 of Shr and Shl, which the
encoder writes as 0 (30 R76, R81; log 21). And what the decoder gives is well formed: a Sys never carries 0E0 or
0EE (the spec's decision D1, log 3; log 18). -/
def Obligations.DecodedWordReencodesUpToIgnoredBits : Prop :=
  ∀ (op : Word) (i : Instr), decode op = .instr i →
    i.wellFormed = true ∧
    (encode i = op ∨ ((i = .shr (fieldX op) ∨ i = .shl (fieldX op)) ∧ encode i = op &&& 0xFF0F#16))

/-- 30 R76: the y bits of 8xy6 and 8xyE are ignored, and no other bit of any instruction is, Shr and Shl included:
words that give the same Shr or Shl agree on bits 15 to 8 and 3 to 0. -/
def Obligations.ShiftYBitsAreTheOnlyIgnoredBits : Prop :=
  (∀ x y : RegIdx, decode (formatXYN 0x8#4 x y 0x6#4) = .instr (.shr x)) ∧
  (∀ x y : RegIdx, decode (formatXYN 0x8#4 x y 0xE#4) = .instr (.shl x)) ∧
  (∀ (op op' : Word) (i : Instr), decode op = .instr i → decode op' = .instr i →
    (∀ x, i ≠ .shr x) → (∀ x, i ≠ .shl x) → op = op') ∧
  (∀ (op op' : Word) (i : Instr), decode op = .instr i → decode op' = .instr i →
    ((∃ x, i = .shr x) ∨ ∃ x, i = .shl x) → op &&& 0xFF0F#16 = op' &&& 0xFF0F#16)

/-- 30 section 4: the words of R77, and only these, decode to Unknown, with the word itself (D2, log 4). -/
def Obligations.UnknownWordsAreExactlyTheListedOnes : Prop :=
  ∀ op w : Word, decode op = .unknown w ↔ w = op ∧
    ((fieldO op = 0x5#4 ∧ fieldN op ≠ 0x0#4) ∨
     (fieldO op = 0x8#4 ∧ fieldN op ∈ [0x8#4, 0x9#4, 0xA#4, 0xB#4, 0xC#4, 0xD#4, 0xF#4]) ∨
     (fieldO op = 0x9#4 ∧ fieldN op ≠ 0x0#4) ∨ fieldO op = 0xD#4 ∨ fieldO op = 0xE#4 ∨
     (fieldO op = 0xF#4 ∧ fieldKK op ≠ 0x07#8 ∧ fieldKK op ≠ 0x15#8))

/-- 30 section 3: in group 0 the exact words come before the pattern 0nnn (the spec's decision D1, log 3). -/
def Obligations.GroupZeroGivesExactWordsPriority : Prop :=
  ∀ nnn : Addr, decode (formatNNN 0x0#4 nnn) =
    .instr (if nnn = 0x0E0#12 then .cls else if nnn = 0x0EE#12 then .ret else .sys nnn)

/-! ### The driver's step (60_exceptions.md R220, 20_memory.md R53) -/

/-- When the two bytes at pc, each address masked by itself (D7, log 9), decode to an instruction, the driver's
step is that instruction executed with pc already advanced by 2 (D8, log 10), the turn being spent (log 14). -/
def Obligations.StepRunsTheDecodedInstruction : Prop :=
  ∀ (s : State) (i : Instr), s.driverMoves →
    decodeBytes (s.mem.read (s.pc.toNat % 4096)) (s.mem.read ((s.pc.toNat + 1) % 4096)) = .instr i →
    step s = exec i (s.turnSpent.setPC (s.pc + 2#16))

/-- 43 R192: a word that decodes to Unknown is not executed; the step's outcome is DecodeFailure with the word.
The outcome carries no state: the state stays the one before (log 16). -/
def Obligations.StepReportsUnknownWord : Prop :=
  ∀ (s : State) (op : Word), s.driverMoves → decode s.fetch = .unknown op → step s = .fault (.decodeFailure op)

/-- 20 R53: the fetch is big-endian, and each byte's address is masked by itself (D7, log 9), for every pc. -/
def Obligations.FetchIsBigEndianAtMaskedAddresses : Prop :=
  ∀ s : State, s.fetch.toNat =
    256 * (s.mem.read (s.pc.toNat % 4096)).toNat + (s.mem.read ((s.pc.toNat + 1) % 4096)).toNat

/-- A word placed for the next fetch is the instruction the next step runs (the model's own `withFetchWord`,
log 17): from any state, whatever the schedule. -/
def Obligations.PlacedWordIsRunByTheNextStep : Prop :=
  ∀ (s : State) (nbits w : Nat) (i : Instr), decodeTableWord nbits w = some i →
    ∃ ts, (ts = s.env.turns ∨ s.env.turns = .driver :: ts) ∧
      step (s.withFetchWord nbits w) =
        exec i (((s.placeWord (tableWord nbits w)).setTurns ts).setPC (s.pc + 2#16))

/-! ### Register loads and arithmetic-logic (40_alu.md) -/

/-- 40 R103, whole: encoding, result, no flag, always Done, frame. -/
def Obligations.LdByteLoadsImmediate : Prop :=
  (∀ (x : RegIdx) (kk : Byte), decode (formatXKK 0x6#4 x kk) = .instr (.ldByte x kk)) ∧
  ∀ (x : RegIdx) (kk : Byte) (s : State), ∃ t, exec (.ldByte x kk) s = .next t ∧
    t.reg x = kk ∧ OnlyRegsChange [x] s t

/-- 40 R104, whole: the sum mod 256, no flag even when it wraps. -/
def Obligations.AddByteWrapsWithoutFlag : Prop :=
  (∀ (x : RegIdx) (kk : Byte), decode (formatXKK 0x7#4 x kk) = .instr (.addByte x kk)) ∧
  ∀ (x : RegIdx) (kk : Byte) (s : State), ∃ t, exec (.addByte x kk) s = .next t ∧
    (t.reg x).toNat = ((s.reg x).toNat + kk.toNat) % 256 ∧ OnlyRegsChange [x] s t

/-- 40 R105, whole. -/
def Obligations.LdCopiesRegister : Prop :=
  (∀ x y : RegIdx, decode (formatXYN 0x8#4 x y 0x0#4) = .instr (.ld x y)) ∧
  ∀ (x y : RegIdx) (s : State), ∃ t, exec (.ld x y) s = .next t ∧ t.reg x = s.reg y ∧ OnlyRegsChange [x] s t

/-- 40 R106, R107, R108, whole: each bit of V[x], and VF left unmodified unless it is V[x]. -/
def Obligations.BitwiseInstructionsWriteOnlyVx : Prop :=
  (∀ x y : RegIdx, decode (formatXYN 0x8#4 x y 0x1#4) = .instr (.or x y) ∧
    decode (formatXYN 0x8#4 x y 0x2#4) = .instr (.and x y) ∧ decode (formatXYN 0x8#4 x y 0x3#4) = .instr (.xor x y)) ∧
  ∀ (x y : RegIdx) (s : State),
    (∃ t, exec (.or x y) s = .next t ∧ OnlyRegsChange [x] s t ∧
      ∀ b, (t.reg x).getLsbD b = ((s.reg x).getLsbD b || (s.reg y).getLsbD b)) ∧
    (∃ t, exec (.and x y) s = .next t ∧ OnlyRegsChange [x] s t ∧
      ∀ b, (t.reg x).getLsbD b = ((s.reg x).getLsbD b && (s.reg y).getLsbD b)) ∧
    (∃ t, exec (.xor x y) s = .next t ∧ OnlyRegsChange [x] s t ∧
      ∀ b, (t.reg x).getLsbD b = ((s.reg x).getLsbD b ^^ (s.reg y).getLsbD b))

/-- 40 R109, whole: both values from the operands before any write, VF written last, so that with x = 0xF the
carry stays and the sum is lost. -/
def Obligations.AddWritesSumThenCarry : Prop :=
  (∀ x y : RegIdx, decode (formatXYN 0x8#4 x y 0x4#4) = .instr (.add x y)) ∧
  ∀ (x y : RegIdx) (s : State), ∃ t, exec (.add x y) s = .next t ∧
    (x ≠ 0xF#4 → (t.reg x).toNat = ((s.reg x).toNat + (s.reg y).toNat) % 256) ∧
    (t.reg 0xF#4).toNat = (if (s.reg x).toNat + (s.reg y).toNat > 255 then 1 else 0) ∧
    OnlyRegsChange [x, 0xF#4] s t

/-- 40 section 2, Sub and Subn: the difference mod 256, and "not borrow" by the strict test, written last.
With x = 0xF this rests on the spec's decision D3 (log 5). -/
def Obligations.SubAndSubnWriteDifferenceThenNotBorrow : Prop :=
  (∀ x y : RegIdx, decode (formatXYN 0x8#4 x y 0x5#4) = .instr (.sub x y) ∧
    decode (formatXYN 0x8#4 x y 0x7#4) = .instr (.subn x y)) ∧
  ∀ (x y : RegIdx) (s : State),
    (∃ t, exec (.sub x y) s = .next t ∧
      (x ≠ 0xF#4 → ((t.reg x).toNat : Int) = ((s.reg x).toNat - (s.reg y).toNat : Int) % 256) ∧
      (t.reg 0xF#4).toNat = (if (s.reg x).toNat > (s.reg y).toNat then 1 else 0) ∧ OnlyRegsChange [x, 0xF#4] s t) ∧
    (∃ t, exec (.subn x y) s = .next t ∧
      (x ≠ 0xF#4 → ((t.reg x).toNat : Int) = ((s.reg y).toNat - (s.reg x).toNat : Int) % 256) ∧
      (t.reg 0xF#4).toNat = (if (s.reg y).toNat > (s.reg x).toNat then 1 else 0) ∧ OnlyRegsChange [x, 0xF#4] s t)

/-- 40 section 2, Shr and Shl: V[x] is shifted, never V[y]; VF gets the bit shifted out, last. With x = 0xF this
rests on the spec's decision D3 (log 5). -/
def Obligations.ShiftsWriteResultThenLostBit : Prop :=
  ∀ (x : RegIdx) (s : State),
    (∃ t, exec (.shr x) s = .next t ∧ (x ≠ 0xF#4 → (t.reg x).toNat = (s.reg x).toNat / 2) ∧
      (t.reg 0xF#4).toNat = (s.reg x).toNat % 2 ∧ OnlyRegsChange [x, 0xF#4] s t) ∧
    (∃ t, exec (.shl x) s = .next t ∧ (x ≠ 0xF#4 → (t.reg x).toNat = (s.reg x).toNat * 2 % 256) ∧
      (t.reg 0xF#4).toNat = (s.reg x).toNat / 128 ∧ OnlyRegsChange [x, 0xF#4] s t)

/-- 10 section 2 (R23): VF changes only as the flag of Add, Sub, Subn, Shr, Shl, and then to 0 or 1, or as the
destination register of one of the eight data instructions. For x = 0xF in the last four flag writers it rests
on the spec's decision D3 (log 5). -/
def Obligations.VFChangesOnlyAsFlagOrDestination : Prop :=
  ∀ (i : Instr) (s t : State), exec i s = .next t → t.reg 0xF#4 ≠ s.reg 0xF#4 →
    (((∃ x y, i = .add x y) ∨ (∃ x y, i = .sub x y) ∨ (∃ x y, i = .subn x y) ∨ (∃ x, i = .shr x) ∨
        (∃ x, i = .shl x)) ∧ (t.reg 0xF#4 = 0x00#8 ∨ t.reg 0xF#4 = 0x01#8)) ∨
    ((∃ kk, i = .ldByte 0xF#4 kk) ∨ (∃ kk, i = .addByte 0xF#4 kk) ∨ (∃ y, i = .ld 0xF#4 y) ∨ (∃ y, i = .or 0xF#4 y) ∨
      (∃ y, i = .and 0xF#4 y) ∨ (∃ y, i = .xor 0xF#4 y) ∨ (∃ kk, i = .rnd 0xF#4 kk) ∨ i = .ldVxDelay 0xF#4)

/-! ### Control flow (41_control.md) -/

/-- 41 sections 1 and 2: the encoding of each skip; and each, where its condition holds (conditions by the spec's G1, log 11), adds 2 to pc
mod 2^16 (the spec's decision D6, log 8), and changes nothing otherwise. -/
def Obligations.SkipsAdvanceByTwoOnTheirCondition : Prop :=
  (∀ x y : RegIdx, decode (formatXYN 0x5#4 x y 0x0#4) = .instr (.se x y) ∧
    decode (formatXYN 0x9#4 x y 0x0#4) = .instr (.sne x y)) ∧
  (∀ (x : RegIdx) (kk : Byte), decode (formatXKK 0x3#4 x kk) = .instr (.seByte x kk) ∧
    decode (formatXKK 0x4#4 x kk) = .instr (.sneByte x kk)) ∧
  ∀ (x y : RegIdx) (kk : Byte) (s : State),
    (∃ t, exec (.se x y) s = .next t ∧ OnlyPCChanges s t ∧
      t.pc.toNat = if s.reg x = s.reg y then (s.pc.toNat + 2) % 65536 else s.pc.toNat) ∧
    (∃ t, exec (.sne x y) s = .next t ∧ OnlyPCChanges s t ∧
      t.pc.toNat = if s.reg x = s.reg y then s.pc.toNat else (s.pc.toNat + 2) % 65536) ∧
    (∃ t, exec (.seByte x kk) s = .next t ∧ OnlyPCChanges s t ∧
      t.pc.toNat = if s.reg x = kk then (s.pc.toNat + 2) % 65536 else s.pc.toNat) ∧
    (∃ t, exec (.sneByte x kk) s = .next t ∧ OnlyPCChanges s t ∧
      t.pc.toNat = if s.reg x = kk then s.pc.toNat else (s.pc.toNat + 2) % 65536)

/-- 41 R146, whole: encoding, target, frame; and a jump to its own address makes the driver's step give back the
state it started in, so the run goes on for ever. -/
def Obligations.JpSetsPCAndSelfJumpLoops : Prop :=
  (∀ nnn : Addr, decode (formatNNN 0x1#4 nnn) = .instr (.jp nnn)) ∧
  (∀ (nnn : Addr) (s : State), ∃ t, exec (.jp nnn) s = .next t ∧ t.pc.toNat = nnn.toNat ∧ OnlyPCChanges s t) ∧
  (∀ (nnn : Addr) (s : State), s.env.turns = [] → s.pc.toNat = nnn.toNat → decode s.fetch = .instr (.jp nnn) →
    step s = .next s)

/-- 41 section 3 (JpV0): encoding; the sum is not masked and cannot wrap, at most 0x10FE. -/
def Obligations.JpV0AddsWithoutMask : Prop :=
  (∀ nnn : Addr, decode (formatNNN 0xB#4 nnn) = .instr (.jpV0 nnn)) ∧
  ∀ (nnn : Addr) (s : State), ∃ t, exec (.jpV0 nnn) s = .next t ∧
    t.pc.toNat = nnn.toNat + (s.reg 0x0#4).toNat ∧ t.pc.toNat ≤ 0x10FE ∧ OnlyPCChanges s t

/-- 41 section 4 (Call): encoding; on a stack that is not full, push the full pc and jump; with STACK_DEPTH = unbounded the
stack is never full (the spec's decision D4, log 6). -/
def Obligations.CallPushesPCAndJumps : Prop :=
  (∀ nnn : Addr, decode (formatNNN 0x2#4 nnn) = .instr (.call nnn)) ∧
  ∀ (nnn : Addr) (s : State), s.env.params.stackDepth ≠ some s.stack.length →
    ∃ t, exec (.call nnn) s = .next t ∧ t.pc.toNat = nnn.toNat ∧ t.stack = s.pc :: s.stack ∧ OnlyControlChanges s t

/-- 41 section 4 (Call): on a full stack, StackOverflow with the pc it would have pushed (D4, log 6). -/
def Obligations.CallOnFullStackOverflows : Prop :=
  ∀ (nnn : Addr) (s : State), s.env.params.stackDepth = some s.stack.length →
    exec (.call nnn) s = .fault (.stackOverflow s.pc)

/-- 41 section 4 (Ret): pop and mask; on an empty stack as the parameter RET_ON_EMPTY says (D5, log 7). -/
def Obligations.RetPopsAndMasksOrActsAsConfigured : Prop :=
  (∀ (r : Word) (rest : List Word) (s : State), s.stack = r :: rest →
    ∃ t, exec .ret s = .next t ∧ t.pc.toNat = r.toNat % 4096 ∧ t.stack = rest ∧ OnlyControlChanges s t) ∧
  (∀ s : State, s.stack = [] → s.env.params.retOnEmpty = .inert → exec .ret s = .next s) ∧
  (∀ s : State, s.stack = [] → s.env.params.retOnEmpty = .fault → exec .ret s = .fault .stackUnderflow)

/-- 41 R150, whole: Call(A) then Ret gives back the state, with pc = P for P ≤ 0x0FFF and P & 0x0FFF above. -/
def Obligations.CallThenRetRestoresTheState : Prop :=
  ∀ (nnn : Addr) (s : State),
    (∀ d, s.env.params.stackDepth = some d → s.stack.length < d) →
    ∃ t, exec (.call nnn) s = .next t ∧ t.pc.toNat = nnn.toNat ∧ t.stack = s.pc :: s.stack ∧
      ∃ u, exec .ret t = .next u ∧ u.pc.toNat = s.pc.toNat % 4096 ∧
        (s.pc.toNat ≤ 0x0FFF → u = s) ∧ u = s.setPC u.pc

/-! ### Index register, timers, random byte (42_index_timer_rnd.md) -/

/-- 42 R170, whole: I takes nnn, its bits 15 to 12 become 0, nothing else changes; and no instruction reads I: with
another I an instruction ends the same way and leaves everything but I the same. -/
def Obligations.LdiLoadsIndexThatNothingReads : Prop :=
  (∀ nnn : Addr, decode (formatNNN 0xA#4 nnn) = .instr (.ldi nnn)) ∧
  (∀ (nnn : Addr) (s : State), ∃ t, exec (.ldi nnn) s = .next t ∧ t.I.toNat = nnn.toNat ∧ t.indexIsAddress ∧
    (∀ j, t.reg j = s.reg j) ∧ t.pc = s.pc ∧ t.DT = s.DT ∧ t.ST = s.ST ∧ t.stack = s.stack ∧ MemSame s t ∧
    t.env = s.env) ∧
  (∀ (i : Instr) (s : State) (v : Word),
    (∀ t, exec i s = .next t → ∃ u, exec i (s.setI v) = .next u ∧ u = t.setI u.I) ∧
    (∀ f, exec i s = .fault f → exec i (s.setI v) = .fault f))

/-- 42 section of R171: V[x] takes DT. -/
def Obligations.LdVxDelayReadsDelayTimer : Prop :=
  (∀ x : RegIdx, decode (formatXKK 0xF#4 x 0x07#8) = .instr (.ldVxDelay x)) ∧
  ∀ (x : RegIdx) (s : State), ∃ t, exec (.ldVxDelay x) s = .next t ∧ t.reg x = s.DT ∧ OnlyRegsChange [x] s t

/-- 42 section of R172: DT takes V[x]; ST is not touched, nor anything else. -/
def Obligations.LdDelayVxWritesDelayTimer : Prop :=
  (∀ x : RegIdx, decode (formatXKK 0xF#4 x 0x15#8) = .instr (.ldDelayVx x)) ∧
  ∀ (x : RegIdx) (s : State), ∃ t, exec (.ldDelayVx x) s = .next t ∧ t.DT = s.reg x ∧
    (∀ j, t.reg j = s.reg j) ∧ t.pc = s.pc ∧ t.I = s.I ∧ t.ST = s.ST ∧ t.stack = s.stack ∧ MemSame s t ∧ t.env = s.env

/-- 42 sections of R173 and R174: encoding; exactly one draw, also for kk = 0; V[x] is the draw under the mask, so at most kk
whatever was drawn; a scripted source's next answer is the draw. Holds for every value of the free draw (D12,
log 13). -/
def Obligations.RndMasksExactlyOneDraw : Prop :=
  (∀ (x : RegIdx) (kk : Byte), decode (formatXKK 0xC#4 x kk) = .instr (.rnd x kk)) ∧
  ∀ (x : RegIdx) (kk : Byte) (s : State), ∃ t, exec (.rnd x kk) s = .next t ∧
    t.reg x = s.nextDraw &&& kk ∧ (t.reg x).toNat ≤ kk.toNat ∧
    (∀ r rs, s.env.rndScript = r :: rs → t.reg x = r &&& kk ∧ t.env.rndScript = rs) ∧
    t.env = { s.env with rndScript := s.env.rndScript.tail, rndCount := s.env.rndCount + 1 } ∧
    (∀ j, j ≠ x → t.reg j = s.reg j) ∧ t.pc = s.pc ∧ t.I = s.I ∧ t.DT = s.DT ∧ t.ST = s.ST ∧
    t.stack = s.stack ∧ MemSame s t

/-- 60 section 5: k ticks, each a step of its own, lower DT and ST by k, stopping at 0 (the spec's decision D11
and G3, log 12), and change nothing else but the schedule. -/
def Obligations.TicksLowerBothTimersToZero : Prop :=
  ∀ (k : Nat) (ts : List Turn) (s : State), s.env.turns = List.replicate k (.host .timerTick) ++ ts →
    ∃ t, run k s = .next t ∧
      t.DT.toNat = s.DT.toNat - k ∧ t.ST.toNat = s.ST.toNat - k ∧
      (∀ j, t.reg j = s.reg j) ∧ t.pc = s.pc ∧ t.I = s.I ∧ t.stack = s.stack ∧ MemSame s t ∧
      t.env = { s.env with turns := ts }

/-- 70 section 2 (R246): a value written to DT and read back after k ticks is lower by k, down to 0 (D11, G3; log 12). -/
def Obligations.DelayReadBackIsLoweredByTicks : Prop :=
  ∀ (a b : RegIdx) (k : Nat) (ts : List Turn) (s : State),
    s.env.turns = List.replicate k (.host .timerTick) ++ ts →
    ∃ t u v, exec (.ldDelayVx a) s = .next t ∧ run k t = .next u ∧
      exec (.ldVxDelay b) u = .next v ∧ (v.reg b).toNat = (s.reg a).toNat - k

/-! ### Unimplemented (43_unimplemented.md) -/

/-- 43 R190, R191, whole: Sys and Cls end with Unimplemented, always; 0000 is Sys(0). No state changes: the outcome
carries none (log 16). -/
def Obligations.SysAndClsSignalUnimplemented : Prop :=
  (∀ nnn : Addr, nnn ≠ 0x0E0#12 → nnn ≠ 0x0EE#12 → decode (formatNNN 0x0#4 nnn) = .instr (.sys nnn)) ∧
  decode 0x0000#16 = .instr (.sys 0x000#12) ∧ decode 0x00E0#16 = .instr .cls ∧
  (∀ (nnn : Addr) (s : State), exec (.sys nnn) s = .fault (.unimplemented (.sys nnn))) ∧
  (∀ s : State, exec .cls s = .fault (.unimplemented .cls))

/-! ### The whole machine -/

/-- 60 sections 2 (R202, R203): every instruction completes in every state, but for the four cases named, each with
its own outcome; StackOverflow rests on D4 (log 6), StackUnderflow on D5 (log 7). -/
def Obligations.InstructionsCompleteButInFourCases : Prop :=
  ∀ (i : Instr) (s : State),
    (∃ nnn, i = .sys nnn ∧ exec i s = .fault (.unimplemented (.sys nnn))) ∨
    (i = .cls ∧ exec i s = .fault (.unimplemented .cls)) ∨
    (∃ nnn, i = .call nnn ∧ s.env.params.stackDepth = some s.stack.length ∧ exec i s = .fault (.stackOverflow s.pc)) ∨
    (i = .ret ∧ s.stack = [] ∧ s.env.params.retOnEmpty = .fault ∧ exec i s = .fault .stackUnderflow) ∨
    ((∀ nnn, i ≠ .sys nnn) ∧ i ≠ .cls ∧
      (∀ nnn, i = .call nnn → s.env.params.stackDepth ≠ some s.stack.length) ∧
      (i = .ret → s.stack = [] → s.env.params.retOnEmpty ≠ .fault) ∧ ∃ t, exec i s = .next t)

/-- No instruction and no host call is without a meaning in the model. -/
def Obligations.StepNeverRefuses : Prop :=
  ∀ (s : State) (r : Refusal), step s ≠ .refused r

/-- 60 section 2 (R201), the table of outcomes: why a step can stop, with the code (D14) and the record of each.
Call's pc + 2 is the driver's advance (D8, log 10), the full stack is the spec's bound (D4, log 6), StackUnderflow
its parameter (D5, log 7), IndexOutOfRange its D18. The host's Push on a full stack is the model's choice (log 15). -/
def Obligations.EveryStopHasItsListedCause : Prop :=
  ∀ (s : State) (f : Fault), step s = .fault f →
    (s.driverMoves ∧ f.code = 1 ∧ decode s.fetch = .unknown s.fetch ∧ f = .decodeFailure s.fetch) ∨
    (s.driverMoves ∧ f.code = 2 ∧ ∃ i, decode s.fetch = .instr i ∧ f = .unimplemented i ∧
      (i = .cls ∨ ∃ nnn, i = .sys nnn)) ∨
    (s.driverMoves ∧ f.code = 3 ∧ (∃ nnn, decode s.fetch = .instr (.call nnn)) ∧
      s.env.params.stackDepth = some s.stack.length ∧ f = .stackOverflow (s.pc + 2#16)) ∨
    (s.driverMoves ∧ f.code = 4 ∧ decode s.fetch = .instr .ret ∧ s.stack = [] ∧
      s.env.params.retOnEmpty = .fault ∧ f = .stackUnderflow) ∨
    (f.code = 5 ∧ ∃ sp n ts, f = .indexOutOfRange sp n ∧
      (s.env.turns = .host (.get sp n) :: ts ∨ ∃ v, s.env.turns = .host (.set sp n v) :: ts) ∧
      (sp = .reg ∧ 16 ≤ n ∨ sp = .mem ∧ 4096 ≤ n)) ∨
    (f.code = 3 ∧ ∃ v ts, f = .stackOverflow v ∧ s.env.turns = .host (.push v) :: ts ∧
      s.env.params.stackDepth = some s.stack.length)

/-- 10 section 7 (R36), the "writes" column: what an instruction leaves unchanged, over all instructions. -/
def Obligations.InstructionsWriteOnlyWhatTheMatrixLists : Prop :=
  ∀ (i : Instr) (s t : State), exec i s = .next t →
    (∀ j, j ∉ regWrites i → t.reg j = s.reg j) ∧
    (mayWritePC i = false → t.pc = s.pc) ∧
    ((∀ nnn, i ≠ .ldi nnn) → t.I = s.I) ∧
    ((∀ x, i ≠ .ldDelayVx x) → t.DT = s.DT) ∧
    t.ST = s.ST ∧ MemSame s t ∧
    ((∀ nnn, i ≠ .call nnn) → i ≠ .ret → t.stack = s.stack) ∧
    ((∀ x kk, i ≠ .rnd x kk) → t.env = s.env)

/-- 10 section 7 (R36): no instruction reads memory or ST: with another memory and another ST an instruction ends
the same way, and what it leaves differs in these two alone. -/
def Obligations.InstructionsReadNeitherMemoryNorSoundTimer : Prop :=
  ∀ (i : Instr) (s : State) (m : Memory) (v : Byte),
    (∀ t, exec i s = .next t → exec i ((s.setMem m).setST v) = .next ((t.setMem m).setST v)) ∧
    (∀ f, exec i s = .fault f → exec i ((s.setMem m).setST v) = .fault f)

/-- 10 sections 1 and 4 (R20, R28, R29): memory stays canonical and the stack within STACK_DEPTH, over every step:
every instruction and every host call. -/
def Obligations.EveryStepKeepsMemoryAndStackInvariant : Prop :=
  ∀ s t : State, s.Inv → step s = .next t → t.Inv

/-- The invariant holds after every construction of 10 section 5, for every value of the parameters. -/
def Obligations.ConstructionsMeetTheInvariant : Prop :=
  State.reset.Inv ∧ State.reset.indexIsAddress ∧
    ∀ (p : Config.Params) (V : Vector Byte 16), (State.seeded p V).Inv ∧ (State.seeded p V).indexIsAddress

/-- 10 section 4 (R25): over the driver's steps, bits 15 to 12 of I stay 0. (The host's SetI may set them.) -/
def Obligations.InstructionStepsKeepIndexTwelveBits : Prop :=
  ∀ s t : State, s.driverMoves → s.indexIsAddress → step s = .next t → t.indexIsAddress

/-- 20 section 5 (R62) and 10 section 4 (R27): a driver's step leaves every byte of memory and ST as they were, so a
program cannot change its own code. -/
def Obligations.InstructionStepsWriteNeitherMemoryNorSoundTimer : Prop :=
  ∀ s t : State, s.driverMoves → step s = .next t → MemSame s t ∧ t.mem = s.mem ∧ t.ST = s.ST

/-- 00 section 3 (R6, R7): no step changes the parameters; each step spends one turn (log 14). -/
def Obligations.StepsKeepParametersAndSpendOneTurn : Prop :=
  ∀ s t : State, step s = .next t → t.env.params = s.env.params ∧ t.env.turns = s.env.turns.tail

/-! ### The host (10_state.md R33 to R35, 70_reset_and_hazards.md) -/

/-- 10 section 6 (R34): a Get or Set with a bad index stops with IndexOutOfRange (D18), and no driver's step does. -/
def Obligations.BadIndexStopsHostCallsOnly : Prop :=
  (∀ (s : State) (n : Nat) (v : Byte) (ts : List Turn), 4096 ≤ n →
    (s.env.turns = .host (.set .mem n v) :: ts → step s = .fault (.indexOutOfRange .mem n)) ∧
    (s.env.turns = .host (.get .mem n) :: ts → step s = .fault (.indexOutOfRange .mem n))) ∧
  (∀ (s : State) (n : Nat) (v : Byte) (ts : List Turn), 16 ≤ n →
    (s.env.turns = .host (.set .reg n v) :: ts → step s = .fault (.indexOutOfRange .reg n)) ∧
    (s.env.turns = .host (.get .reg n) :: ts → step s = .fault (.indexOutOfRange .reg n))) ∧
  (∀ (s : State) (sp : Space) (n : Nat), s.driverMoves → step s ≠ .fault (.indexOutOfRange sp n))

/-- 10 section 6 (R33), 20 section 5 (R59): after a Set in range, a Get of that index gives the value, every other
index of both spaces gives what it gave, and nothing else changes but the schedule. -/
def Obligations.HostSetReadsBackAndTouchesNothingElse : Prop :=
  ∀ (s : State) (sp : Space) (n : Nat) (v : Byte) (ts : List Turn),
    (sp = .reg ∧ n < 16 ∨ sp = .mem ∧ n < 4096) → s.env.turns = .host (.set sp n v) :: ts →
    ∃ t, step s = .next t ∧ hostCall (.get sp n) t = .ok (.byte v, t) ∧
      (∀ sp' m, (sp', m) ≠ (sp, n) → muxGet sp' m t = muxGet sp' m s) ∧
      t.pc = s.pc ∧ t.I = s.I ∧ t.DT = s.DT ∧ t.ST = s.ST ∧ t.stack = s.stack ∧ t.env = { s.env with turns := ts }

/-- 10 section 6 (R33, R35): Get in range and each path of R35 reads or writes its own state, and no instruction
runs in that step. Push on a full stack and Pop on an empty one are the model's own choice (log 15). -/
def Obligations.HostPathsActOnTheirOwnState : Prop :=
  ∀ (s : State) (ts : List Turn) (w : Word) (b : Byte),
    (s.env.turns = .host .getPC :: ts → step s = .next (s.setTurns ts)) ∧
    (s.env.turns = .host .getDT :: ts → step s = .next (s.setTurns ts)) ∧
    (s.env.turns = .host .getST :: ts → step s = .next (s.setTurns ts)) ∧
    (s.env.turns = .host (.setPC w) :: ts → step s = .next ((s.setTurns ts).setPC w)) ∧
    (s.env.turns = .host (.setI w) :: ts → step s = .next ((s.setTurns ts).setI w)) ∧
    (s.env.turns = .host (.setDT b) :: ts → step s = .next ((s.setTurns ts).setDT b)) ∧
    (s.env.turns = .host (.setST b) :: ts → step s = .next ((s.setTurns ts).setST b)) ∧
    (s.env.turns = .host (.push w) :: ts → s.env.params.stackDepth ≠ some s.stack.length →
      step s = .next ((s.setTurns ts).setStack (w :: s.stack))) ∧
    (s.env.turns = .host (.push w) :: ts → s.env.params.stackDepth = some s.stack.length →
      step s = .fault (.stackOverflow w)) ∧
    (s.env.turns = .host .pop :: ts → step s = .next ((s.setTurns ts).setStack s.stack.tail)) ∧
    (s.env.turns = .host (.answerRnd b) :: ts →
      step s = .next (s.setEnv { s.env with turns := ts, rndScript := s.env.rndScript ++ [b] })) ∧
    (∀ (sp : Space) (n : Nat), (sp = .reg ∧ n < 16 ∨ sp = .mem ∧ n < 4096) →
      s.env.turns = .host (.get sp n) :: ts → step s = .next (s.setTurns ts)) ∧
    (∀ j : RegIdx, hostCall (.get .reg j.toNat) s = .ok (.byte (s.reg j), s)) ∧
    (∀ a, a < 4096 → hostCall (.get .mem a) s = .ok (.byte (s.mem.read a), s)) ∧
    (∀ r rest, s.stack = r :: rest → hostCall .pop s = .ok (.word r, s.setStack rest)) ∧
    (s.stack = [] → hostCall .pop s = .ok (.none, s)) ∧
    hostCall .getPC s = .ok (.word s.pc, s) ∧ hostCall .getDT s = .ok (.byte s.DT, s) ∧
    hostCall .getST s = .ok (.byte s.ST, s)

/-- 10 section 5: what reset leaves. pc = 0 is the spec's decision D9 (log 2); the parameters are the defaults of 00
R6 (log 20); the schedule and the randomness source's answers are the model's own (log 13, log 14). -/
def Obligations.ResetHoldsZeroEverywhere : Prop :=
  (∀ j, State.reset.reg j = 0x00#8) ∧ State.reset.pc = 0x0000#16 ∧ State.reset.I = 0x0000#16 ∧
    State.reset.DT = 0x00#8 ∧ State.reset.ST = 0x00#8 ∧
    State.reset.stack = [] ∧ (∀ a, State.reset.mem.read a = 0x00#8) ∧
    State.reset.env.params.stackDepth = some 16 ∧ State.reset.env.params.retOnEmpty = .inert

/-- 10 R32: the seeded construction takes its registers from the host and every other field from R31. -/
def Obligations.SeededConstructionDiffersInRegistersOnly : Prop :=
  ∀ (p : Config.Params) (V : Vector Byte 16),
    (∀ j : RegIdx, (State.seeded p V).reg j = V[j.toNat]'j.isLt) ∧
    (State.seeded p V).pc = (State.construct p).pc ∧ (State.seeded p V).I = (State.construct p).I ∧
    (State.seeded p V).DT = (State.construct p).DT ∧ (State.seeded p V).ST = (State.construct p).ST ∧
    (State.seeded p V).stack = (State.construct p).stack ∧ (State.seeded p V).mem = (State.construct p).mem ∧
    (State.seeded p V).env = (State.construct p).env

/-- 70 section 1 (R241): a fresh machine stepped without boot stops on Sys(0x000) (pc = 0 by D9, log 2). -/
def Obligations.FreshMachineStopsOnSys : Prop :=
  step State.reset = .fault (.unimplemented (.sys 0x000#12))

/-- 70 section 1 (R242): booting, the host's calls run as steps, leaves the program at 0x200, pc = 0x200 (D10, log
17), and every other byte and field as constructed: for every program that fits. -/
def Obligations.BootLoadsProgramAndSetsPC : Prop :=
  ∀ (p : Config.Params) (rom : List Byte), rom.length ≤ 4096 - 0x200 →
    ∃ t, run (rom.length + 1) (State.booting p rom) = .next t ∧
      (∀ a, t.mem.read a = if 0x200 ≤ a ∧ a < 0x200 + rom.length then rom.getD (a - 0x200) 0x00#8 else 0x00#8) ∧
      t.pc = 0x200#16 ∧ (∀ j, t.reg j = 0x00#8) ∧ t.I = 0x0000#16 ∧ t.DT = 0x00#8 ∧ t.ST = 0x00#8 ∧ t.stack = [] ∧
      t.env = (State.construct p).env
end

