-- ==== Sys2Proof/Laws/Decode.lean ====
section
/-! SUPPORT. The fields and formats of an opcode as numbers (30_encoding.md R71, R72), from which their round
trips are linear arithmetic; and the two bytes of a word (20_memory.md R52). -/

namespace Sys2Proof

/-- Two bit strings side by side, as a number. -/
theorem append_toNat {m n : Nat} (a : BitVec m) (b : BitVec n) : (a ++ b).toNat = a.toNat * 2 ^ n + b.toNat := by
  rw [BitVec.toNat_append, ← Nat.shiftLeft_add_eq_or_of_lt b.isLt, Nat.shiftLeft_eq]

/-! ### Fields as numbers (R71) -/

theorem fieldO_toNat (op : Word) : (fieldO op).toNat = op.toNat / 4096 := by
  have := op.isLt
  simp only [fieldO, BitVec.extractLsb'_toNat, Nat.shiftRight_eq_div_pow]
  omega

theorem fieldX_toNat (op : Word) : (fieldX op).toNat = op.toNat / 256 % 16 := by
  simp only [fieldX, BitVec.extractLsb'_toNat, Nat.shiftRight_eq_div_pow]

theorem fieldY_toNat (op : Word) : (fieldY op).toNat = op.toNat / 16 % 16 := by
  simp only [fieldY, BitVec.extractLsb'_toNat, Nat.shiftRight_eq_div_pow]

theorem fieldN_toNat (op : Word) : (fieldN op).toNat = op.toNat % 16 := by
  simp only [fieldN, BitVec.extractLsb'_toNat, Nat.shiftRight_eq_div_pow]
  omega

theorem fieldKK_toNat (op : Word) : (fieldKK op).toNat = op.toNat % 256 := by
  simp only [fieldKK, BitVec.extractLsb'_toNat, Nat.shiftRight_eq_div_pow]
  omega

theorem fieldNNN_toNat (op : Word) : (fieldNNN op).toNat = op.toNat % 4096 := by
  simp only [fieldNNN, BitVec.extractLsb'_toNat, Nat.shiftRight_eq_div_pow]
  omega

/-! ### Formats as numbers (R72) -/

theorem formatNNN_toNat (o : BitVec 4) (nnn : Addr) : (formatNNN o nnn).toNat = 4096 * o.toNat + nnn.toNat := by
  have := append_toNat o nnn
  simp only [formatNNN]
  omega

theorem formatXKK_toNat (o : BitVec 4) (x : RegIdx) (kk : Byte) :
    (formatXKK o x kk).toNat = 4096 * o.toNat + 256 * x.toNat + kk.toNat := by
  have h1 := append_toNat o x
  have h2 := append_toNat (o ++ x) kk
  simp only [formatXKK]
  omega

theorem formatXYN_toNat (o : BitVec 4) (x y : RegIdx) (n : BitVec 4) :
    (formatXYN o x y n).toNat = 4096 * o.toNat + 256 * x.toNat + 16 * y.toNat + n.toNat := by
  have h1 := formatXKK_toNat o x (y ++ n)
  have h2 := append_toNat y n
  have h3 : formatXYN o x y n = formatXKK o x (y ++ n) := rfl
  rw [h3]
  omega

/-! ### A format's fields -/

@[simp] theorem fieldO_formatNNN (o : BitVec 4) (nnn : Addr) : fieldO (formatNNN o nnn) = o := by
  apply BitVec.eq_of_toNat_eq
  rw [fieldO_toNat, formatNNN_toNat]; omega

@[simp] theorem fieldNNN_formatNNN (o : BitVec 4) (nnn : Addr) : fieldNNN (formatNNN o nnn) = nnn := by
  apply BitVec.eq_of_toNat_eq
  rw [fieldNNN_toNat, formatNNN_toNat]; omega

@[simp] theorem fieldO_formatXKK (o : BitVec 4) (x : RegIdx) (kk : Byte) : fieldO (formatXKK o x kk) = o := by
  apply BitVec.eq_of_toNat_eq
  rw [fieldO_toNat, formatXKK_toNat]; omega

@[simp] theorem fieldX_formatXKK (o : BitVec 4) (x : RegIdx) (kk : Byte) : fieldX (formatXKK o x kk) = x := by
  apply BitVec.eq_of_toNat_eq
  rw [fieldX_toNat, formatXKK_toNat]; omega

@[simp] theorem fieldKK_formatXKK (o : BitVec 4) (x : RegIdx) (kk : Byte) : fieldKK (formatXKK o x kk) = kk := by
  apply BitVec.eq_of_toNat_eq
  rw [fieldKK_toNat, formatXKK_toNat]; omega

@[simp] theorem fieldO_formatXYN (o : BitVec 4) (x y : RegIdx) (n : BitVec 4) : fieldO (formatXYN o x y n) = o := by
  apply BitVec.eq_of_toNat_eq
  rw [fieldO_toNat, formatXYN_toNat]; omega

@[simp] theorem fieldX_formatXYN (o : BitVec 4) (x y : RegIdx) (n : BitVec 4) : fieldX (formatXYN o x y n) = x := by
  apply BitVec.eq_of_toNat_eq
  rw [fieldX_toNat, formatXYN_toNat]; omega

@[simp] theorem fieldY_formatXYN (o : BitVec 4) (x y : RegIdx) (n : BitVec 4) : fieldY (formatXYN o x y n) = y := by
  apply BitVec.eq_of_toNat_eq
  rw [fieldY_toNat, formatXYN_toNat]; omega

@[simp] theorem fieldN_formatXYN (o : BitVec 4) (x y : RegIdx) (n : BitVec 4) : fieldN (formatXYN o x y n) = n := by
  apply BitVec.eq_of_toNat_eq
  rw [fieldN_toNat, formatXYN_toNat]; omega

/-! ### A word from its fields -/

theorem formatNNN_fields (op : Word) : formatNNN (fieldO op) (fieldNNN op) = op := by
  apply BitVec.eq_of_toNat_eq
  rw [formatNNN_toNat, fieldO_toNat, fieldNNN_toNat]; omega

theorem formatXKK_fields (op : Word) : formatXKK (fieldO op) (fieldX op) (fieldKK op) = op := by
  apply BitVec.eq_of_toNat_eq
  rw [formatXKK_toNat, fieldO_toNat, fieldX_toNat, fieldKK_toNat]; omega

theorem formatXYN_fields (op : Word) : formatXYN (fieldO op) (fieldX op) (fieldY op) (fieldN op) = op := by
  apply BitVec.eq_of_toNat_eq
  rw [formatXYN_toNat, fieldO_toNat, fieldX_toNat, fieldY_toNat, fieldN_toNat]; omega

/-! ### Bytes of a word (20 R52) -/

/-- `byte0<<8 | byte1` as a number. -/
theorem wordOfBytes_toNat (b0 b1 : Byte) : (wordOfBytes b0 b1).toNat = 256 * b0.toNat + b1.toNat := by
  have := append_toNat b0 b1
  simp only [wordOfBytes]
  omega

/-- A word is its two bytes, the high one first. -/
@[simp] theorem wordOfBytes_bytes (op : Word) : wordOfBytes (highByte op) (lowByte op) = op := by
  have := op.isLt
  apply BitVec.eq_of_toNat_eq
  rw [wordOfBytes_toNat]
  simp only [highByte, lowByte, BitVec.extractLsb'_toNat, Nat.shiftRight_eq_div_pow]
  omega

/-- Decoding the two bytes of a word is decoding the word. -/
theorem decodeBytes_bytes (op : Word) : decodeBytes (highByte op) (lowByte op) = decode op := by
  rw [decodeBytes, wordOfBytes_bytes]

end Sys2Proof
end

