-- ==== Sys2Proof/Laws/Memory.lean ====
section
/-! SUPPORT. Memory: a read after a write, and that every memory operation keeps the canonical form. -/

namespace Sys2Proof.Machine

/-! ### Reading -/

@[simp] theorem Memory.read_nil (a : Nat) : Memory.read [] a = 0#8 := rfl

theorem Memory.read_cons (b a : Nat) (v : Byte) (m : Memory) :
    Memory.read ((b, v) :: m) a = if a = b then v else Memory.read m a := rfl

theorem Memory.read_of_not_listed (m : Memory) (a : Nat) (h : ∀ c ∈ m, c.1 ≠ a) : Memory.read m a = 0#8 := by
  induction m with
  | nil => rfl
  | cons c m ih =>
    have hc : a ≠ c.1 := fun e => h c (by simp) e.symm
    rw [show c = (c.1, c.2) from rfl, Memory.read_cons, if_neg hc]
    exact ih fun d hd => h d (by simp [hd])

/-- A listed address of a canonical memory reads as its entry. -/
theorem Memory.read_of_listed (m : Memory) (c : Host.Cell) (hp : m.Pairwise fun c d => c.1 < d.1) (hc : c ∈ m) :
    Memory.read m c.1 = c.2 := by
  induction m with
  | nil => simp at hc
  | cons d m ih =>
    rw [List.pairwise_cons] at hp
    rw [show d = (d.1, d.2) from rfl, Memory.read_cons]
    rcases List.mem_cons.1 hc with rfl | hm
    · simp
    · rw [if_neg (Nat.ne_of_gt (hp.1 c hm))]
      exact ih hp.2 hm

theorem Memory.read_erase (m : Memory) (a b : Nat) :
    Memory.read (m.erase a) b = if b = a then 0#8 else Memory.read m b := by
  induction m with
  | nil => simp [Memory.erase]
  | cons c m ih =>
    obtain ⟨k, w⟩ := c
    simp only [Memory.erase] at ih ⊢
    by_cases hk : k = a
    · simp only [List.filter_cons, hk, ne_eq, not_true_eq_false, decide_false, Bool.false_eq_true, if_false, ih,
        Memory.read_cons]
      split <;> simp_all
    · simp only [List.filter_cons, ne_eq, hk, not_false_eq_true, decide_true, if_true, Memory.read_cons, ih]
      by_cases hb : b = k
      · subst hb; simp [hk]
      · simp [hb]

theorem Memory.read_insert (m : Memory) (a b : Nat) (v : Byte) (h : ∀ c ∈ m, c.1 ≠ a) :
    Memory.read (Memory.insert m a v) b = if b = a then v else Memory.read m b := by
  induction m with
  | nil => simp [Memory.insert, Memory.read_cons]
  | cons c m ih =>
    obtain ⟨k, w⟩ := c
    have hk : k ≠ a := h (k, w) (by simp)
    simp only [Memory.insert]
    split
    · simp only [Memory.read_cons]
    · simp only [Memory.read_cons, ih fun c hc => h c (by simp [hc])]
      by_cases hb : b = k
      · subst hb; simp [hk]
      · simp [hb]

theorem Memory.erase_not_listed (m : Memory) (a : Nat) : ∀ c ∈ m.erase a, c.1 ≠ a := by
  intro c hc
  simpa [Memory.erase] using (List.mem_filter.1 hc).2

/-- 20 R59: a read gives the most recent write to that address. -/
theorem Memory.read_write (m : Memory) (a b : Nat) (v : Byte) :
    Memory.read (m.write a v) b = if b = a then v else Memory.read m b := by
  unfold Memory.write
  split
  · next h => subst h; rw [Memory.read_erase]; rfl
  · rw [Memory.read_insert _ _ _ _ (Memory.erase_not_listed m a), Memory.read_erase]
    split <;> simp_all

@[simp] theorem Memory.read_write_same (m : Memory) (a : Nat) (v : Byte) : Memory.read (m.write a v) a = v := by
  simp [Memory.read_write]

theorem Memory.read_write_other (m : Memory) (a b : Nat) (v : Byte) (h : b ≠ a) :
    Memory.read (m.write a v) b = Memory.read m b := by
  simp [Memory.read_write, h]

/-! ### The canonical form -/

theorem Memory.wf_iff (m : Memory) : m.wf = true ↔
    (m.Pairwise fun c d => c.1 < d.1) ∧ ∀ c ∈ m, c.1 < memSize ∧ c.2 ≠ Memory.unlisted := by
  simp [Memory.wf]

theorem Memory.wf_nil : Memory.wf [] = true := rfl

theorem Memory.wf_erase (m : Memory) (a : Nat) (h : m.wf = true) : (m.erase a).wf = true := by
  rw [Memory.wf_iff] at h ⊢
  exact ⟨h.1.sublist List.filter_sublist, fun c hc => h.2 c (List.mem_filter.1 hc).1⟩

theorem Memory.mem_insert (m : Memory) (a : Nat) (v : Byte) (c : Host.Cell) :
    c ∈ Memory.insert m a v ↔ c = (a, v) ∨ c ∈ m := by
  induction m with
  | nil => simp [Memory.insert]
  | cons d m ih =>
    obtain ⟨k, w⟩ := d
    simp only [Memory.insert]
    split
    · simp
    · simp only [List.mem_cons, ih]
      tauto

theorem Memory.pairwise_insert (m : Memory) (a : Nat) (v : Byte) (hp : m.Pairwise fun c d => c.1 < d.1)
    (h : ∀ c ∈ m, c.1 ≠ a) : (Memory.insert m a v).Pairwise fun c d => c.1 < d.1 := by
  induction m with
  | nil => simp [Memory.insert]
  | cons d m ih =>
    obtain ⟨k, w⟩ := d
    rw [List.pairwise_cons] at hp
    simp only [Memory.insert]
    split
    · next hlt =>
      refine List.pairwise_cons.2 ⟨fun c hc => ?_, List.pairwise_cons.2 hp⟩
      rcases List.mem_cons.1 hc with rfl | hm
      · exact hlt
      · exact Nat.lt_trans hlt (hp.1 c hm)
    · next hge =>
      refine List.pairwise_cons.2 ⟨fun c hc => ?_, ih hp.2 fun c hc => h c (by simp [hc])⟩
      rcases (Memory.mem_insert m a v c).1 hc with rfl | hm
      · have := h (k, w) (by simp)
        simp only at this ⊢
        omega
      · exact hp.1 c hm

/-- Every write keeps the canonical form. -/
theorem Memory.wf_write (m : Memory) (a : Nat) (v : Byte) (ha : a < memSize) (h : m.wf = true) :
    (m.write a v).wf = true := by
  unfold Memory.write
  split
  · exact Memory.wf_erase m a h
  · next hv =>
    have he := (Memory.wf_iff _).1 (Memory.wf_erase m a h)
    refine (Memory.wf_iff _).2 ⟨Memory.pairwise_insert _ _ _ he.1 (Memory.erase_not_listed m a), fun c hc => ?_⟩
    rcases (Memory.mem_insert _ a v c).1 hc with rfl | hm
    · exact ⟨ha, hv⟩
    · exact he.2 c hm

/-- Canonical memories that read alike everywhere are equal data. -/
theorem Memory.ext_of_wf (m n : Memory) (hm : m.wf = true) (hn : n.wf = true)
    (h : ∀ a, Memory.read m a = Memory.read n a) : m = n := by
  have hm' := (Memory.wf_iff m).1 hm
  have hn' := (Memory.wf_iff n).1 hn
  have mem_of (p q : Memory) (hp : (p.Pairwise fun c d => c.1 < d.1) ∧ ∀ c ∈ p, c.1 < memSize ∧ c.2 ≠ Memory.unlisted)
      (hq : (q.Pairwise fun c d => c.1 < d.1) ∧ ∀ c ∈ q, c.1 < memSize ∧ c.2 ≠ Memory.unlisted)
      (e : ∀ a, Memory.read p a = Memory.read q a) (c : Host.Cell) (hc : c ∈ p) : c ∈ q := by
    have hr := Memory.read_of_listed p c hp.1 hc
    by_contra hnot
    by_cases hk : ∃ d ∈ q, d.1 = c.1
    · obtain ⟨d, hd, hdk⟩ := hk
      have hr' := Memory.read_of_listed q d hq.1 hd
      rw [hdk, ← e, hr] at hr'
      exact hnot (by rwa [show c = d from Prod.ext hdk.symm hr'])
    · have := Memory.read_of_not_listed q c.1 fun d hd he => hk ⟨d, hd, he⟩
      rw [← e, hr] at this
      exact (hp.2 c hc).2 this
  have hne (p : Memory) (hp : p.Pairwise fun c d => c.1 < d.1) : p.Nodup :=
    hp.imp fun hlt he => by simp [he] at hlt
  refine List.Perm.eq_of_pairwise (fun a b _ _ h1 h2 => ?_) hm'.1 hn'.1
    ((List.perm_ext_iff_of_nodup (hne m hm'.1) (hne n hn'.1)).2 fun c =>
      ⟨mem_of m n hm' hn' h c, mem_of n m hn' hm' (fun a => (h a).symm) c⟩)
  omega

end Sys2Proof.Machine
end

