-- ==== Sys2Proof/Laws/State.lean ====
section
/-! SUPPORT. One lemma per field per update of the state, true by rfl, and the reads of a register after each
update, so that no proof unfolds a record update. -/

namespace Sys2Proof.Machine

variable (s : State)

/-! ### setReg -/

@[simp] theorem State.setReg_V (i : RegIdx) (v : Byte) : (s.setReg i v).V = s.V.set i.toNat v i.isLt := rfl
@[simp] theorem State.setReg_pc (i : RegIdx) (v : Byte) : (s.setReg i v).pc = s.pc := rfl
@[simp] theorem State.setReg_I (i : RegIdx) (v : Byte) : (s.setReg i v).I = s.I := rfl
@[simp] theorem State.setReg_DT (i : RegIdx) (v : Byte) : (s.setReg i v).DT = s.DT := rfl
@[simp] theorem State.setReg_ST (i : RegIdx) (v : Byte) : (s.setReg i v).ST = s.ST := rfl
@[simp] theorem State.setReg_stack (i : RegIdx) (v : Byte) : (s.setReg i v).stack = s.stack := rfl
@[simp] theorem State.setReg_mem (i : RegIdx) (v : Byte) : (s.setReg i v).mem = s.mem := rfl
@[simp] theorem State.setReg_env (i : RegIdx) (v : Byte) : (s.setReg i v).env = s.env := rfl

/-! ### setPC -/

@[simp] theorem State.setPC_V (v : Word) : (s.setPC v).V = s.V := rfl
@[simp] theorem State.setPC_pc (v : Word) : (s.setPC v).pc = v := rfl
@[simp] theorem State.setPC_I (v : Word) : (s.setPC v).I = s.I := rfl
@[simp] theorem State.setPC_DT (v : Word) : (s.setPC v).DT = s.DT := rfl
@[simp] theorem State.setPC_ST (v : Word) : (s.setPC v).ST = s.ST := rfl
@[simp] theorem State.setPC_stack (v : Word) : (s.setPC v).stack = s.stack := rfl
@[simp] theorem State.setPC_mem (v : Word) : (s.setPC v).mem = s.mem := rfl
@[simp] theorem State.setPC_env (v : Word) : (s.setPC v).env = s.env := rfl
@[simp] theorem State.setPC_reg (v : Word) (j : RegIdx) : (s.setPC v).reg j = s.reg j := rfl

/-! ### setI -/

@[simp] theorem State.setI_V (v : Word) : (s.setI v).V = s.V := rfl
@[simp] theorem State.setI_pc (v : Word) : (s.setI v).pc = s.pc := rfl
@[simp] theorem State.setI_I (v : Word) : (s.setI v).I = v := rfl
@[simp] theorem State.setI_DT (v : Word) : (s.setI v).DT = s.DT := rfl
@[simp] theorem State.setI_ST (v : Word) : (s.setI v).ST = s.ST := rfl
@[simp] theorem State.setI_stack (v : Word) : (s.setI v).stack = s.stack := rfl
@[simp] theorem State.setI_mem (v : Word) : (s.setI v).mem = s.mem := rfl
@[simp] theorem State.setI_env (v : Word) : (s.setI v).env = s.env := rfl
@[simp] theorem State.setI_reg (v : Word) (j : RegIdx) : (s.setI v).reg j = s.reg j := rfl

/-! ### setDT -/

@[simp] theorem State.setDT_V (v : Byte) : (s.setDT v).V = s.V := rfl
@[simp] theorem State.setDT_pc (v : Byte) : (s.setDT v).pc = s.pc := rfl
@[simp] theorem State.setDT_I (v : Byte) : (s.setDT v).I = s.I := rfl
@[simp] theorem State.setDT_DT (v : Byte) : (s.setDT v).DT = v := rfl
@[simp] theorem State.setDT_ST (v : Byte) : (s.setDT v).ST = s.ST := rfl
@[simp] theorem State.setDT_stack (v : Byte) : (s.setDT v).stack = s.stack := rfl
@[simp] theorem State.setDT_mem (v : Byte) : (s.setDT v).mem = s.mem := rfl
@[simp] theorem State.setDT_env (v : Byte) : (s.setDT v).env = s.env := rfl
@[simp] theorem State.setDT_reg (v : Byte) (j : RegIdx) : (s.setDT v).reg j = s.reg j := rfl

/-! ### setST -/

@[simp] theorem State.setST_V (v : Byte) : (s.setST v).V = s.V := rfl
@[simp] theorem State.setST_pc (v : Byte) : (s.setST v).pc = s.pc := rfl
@[simp] theorem State.setST_I (v : Byte) : (s.setST v).I = s.I := rfl
@[simp] theorem State.setST_DT (v : Byte) : (s.setST v).DT = s.DT := rfl
@[simp] theorem State.setST_ST (v : Byte) : (s.setST v).ST = v := rfl
@[simp] theorem State.setST_stack (v : Byte) : (s.setST v).stack = s.stack := rfl
@[simp] theorem State.setST_mem (v : Byte) : (s.setST v).mem = s.mem := rfl
@[simp] theorem State.setST_env (v : Byte) : (s.setST v).env = s.env := rfl
@[simp] theorem State.setST_reg (v : Byte) (j : RegIdx) : (s.setST v).reg j = s.reg j := rfl

/-! ### setStack -/

@[simp] theorem State.setStack_V (v : List Word) : (s.setStack v).V = s.V := rfl
@[simp] theorem State.setStack_pc (v : List Word) : (s.setStack v).pc = s.pc := rfl
@[simp] theorem State.setStack_I (v : List Word) : (s.setStack v).I = s.I := rfl
@[simp] theorem State.setStack_DT (v : List Word) : (s.setStack v).DT = s.DT := rfl
@[simp] theorem State.setStack_ST (v : List Word) : (s.setStack v).ST = s.ST := rfl
@[simp] theorem State.setStack_stack (v : List Word) : (s.setStack v).stack = v := rfl
@[simp] theorem State.setStack_mem (v : List Word) : (s.setStack v).mem = s.mem := rfl
@[simp] theorem State.setStack_env (v : List Word) : (s.setStack v).env = s.env := rfl
@[simp] theorem State.setStack_reg (v : List Word) (j : RegIdx) : (s.setStack v).reg j = s.reg j := rfl

/-! ### setMem -/

@[simp] theorem State.setMem_V (v : Memory) : (s.setMem v).V = s.V := rfl
@[simp] theorem State.setMem_pc (v : Memory) : (s.setMem v).pc = s.pc := rfl
@[simp] theorem State.setMem_I (v : Memory) : (s.setMem v).I = s.I := rfl
@[simp] theorem State.setMem_DT (v : Memory) : (s.setMem v).DT = s.DT := rfl
@[simp] theorem State.setMem_ST (v : Memory) : (s.setMem v).ST = s.ST := rfl
@[simp] theorem State.setMem_stack (v : Memory) : (s.setMem v).stack = s.stack := rfl
@[simp] theorem State.setMem_mem (v : Memory) : (s.setMem v).mem = v := rfl
@[simp] theorem State.setMem_env (v : Memory) : (s.setMem v).env = s.env := rfl
@[simp] theorem State.setMem_reg (v : Memory) (j : RegIdx) : (s.setMem v).reg j = s.reg j := rfl

/-! ### setEnv -/

@[simp] theorem State.setEnv_V (v : Env) : (s.setEnv v).V = s.V := rfl
@[simp] theorem State.setEnv_pc (v : Env) : (s.setEnv v).pc = s.pc := rfl
@[simp] theorem State.setEnv_I (v : Env) : (s.setEnv v).I = s.I := rfl
@[simp] theorem State.setEnv_DT (v : Env) : (s.setEnv v).DT = s.DT := rfl
@[simp] theorem State.setEnv_ST (v : Env) : (s.setEnv v).ST = s.ST := rfl
@[simp] theorem State.setEnv_stack (v : Env) : (s.setEnv v).stack = s.stack := rfl
@[simp] theorem State.setEnv_mem (v : Env) : (s.setEnv v).mem = s.mem := rfl
@[simp] theorem State.setEnv_env (v : Env) : (s.setEnv v).env = v := rfl
@[simp] theorem State.setEnv_reg (v : Env) (j : RegIdx) : (s.setEnv v).reg j = s.reg j := rfl

/-! ### push -/

@[simp] theorem State.push_V (v : Word) : (s.push v).V = s.V := rfl
@[simp] theorem State.push_pc (v : Word) : (s.push v).pc = s.pc := rfl
@[simp] theorem State.push_I (v : Word) : (s.push v).I = s.I := rfl
@[simp] theorem State.push_DT (v : Word) : (s.push v).DT = s.DT := rfl
@[simp] theorem State.push_ST (v : Word) : (s.push v).ST = s.ST := rfl
@[simp] theorem State.push_stack (v : Word) : (s.push v).stack = v :: s.stack := rfl
@[simp] theorem State.push_mem (v : Word) : (s.push v).mem = s.mem := rfl
@[simp] theorem State.push_env (v : Word) : (s.push v).env = s.env := rfl
@[simp] theorem State.push_reg (v : Word) (j : RegIdx) : (s.push v).reg j = s.reg j := rfl

/-! ### dropTop -/

@[simp] theorem State.dropTop_V : s.dropTop.V = s.V := rfl
@[simp] theorem State.dropTop_pc : s.dropTop.pc = s.pc := rfl
@[simp] theorem State.dropTop_I : s.dropTop.I = s.I := rfl
@[simp] theorem State.dropTop_DT : s.dropTop.DT = s.DT := rfl
@[simp] theorem State.dropTop_ST : s.dropTop.ST = s.ST := rfl
@[simp] theorem State.dropTop_stack : s.dropTop.stack = s.stack.tail := rfl
@[simp] theorem State.dropTop_mem : s.dropTop.mem = s.mem := rfl
@[simp] theorem State.dropTop_env : s.dropTop.env = s.env := rfl
@[simp] theorem State.dropTop_reg (j : RegIdx) : s.dropTop.reg j = s.reg j := rfl

/-! ### setTurns -/

@[simp] theorem State.setTurns_V (ts : List Turn) : (s.setTurns ts).V = s.V := rfl
@[simp] theorem State.setTurns_pc (ts : List Turn) : (s.setTurns ts).pc = s.pc := rfl
@[simp] theorem State.setTurns_I (ts : List Turn) : (s.setTurns ts).I = s.I := rfl
@[simp] theorem State.setTurns_DT (ts : List Turn) : (s.setTurns ts).DT = s.DT := rfl
@[simp] theorem State.setTurns_ST (ts : List Turn) : (s.setTurns ts).ST = s.ST := rfl
@[simp] theorem State.setTurns_stack (ts : List Turn) : (s.setTurns ts).stack = s.stack := rfl
@[simp] theorem State.setTurns_mem (ts : List Turn) : (s.setTurns ts).mem = s.mem := rfl
@[simp] theorem State.setTurns_env (ts : List Turn) : (s.setTurns ts).env = { s.env with turns := ts } := rfl
@[simp] theorem State.setTurns_reg (ts : List Turn) (j : RegIdx) : (s.setTurns ts).reg j = s.reg j := rfl

/-! ### consumeDraw -/

@[simp] theorem State.consumeDraw_V : s.consumeDraw.V = s.V := rfl
@[simp] theorem State.consumeDraw_pc : s.consumeDraw.pc = s.pc := rfl
@[simp] theorem State.consumeDraw_I : s.consumeDraw.I = s.I := rfl
@[simp] theorem State.consumeDraw_DT : s.consumeDraw.DT = s.DT := rfl
@[simp] theorem State.consumeDraw_ST : s.consumeDraw.ST = s.ST := rfl
@[simp] theorem State.consumeDraw_stack : s.consumeDraw.stack = s.stack := rfl
@[simp] theorem State.consumeDraw_mem : s.consumeDraw.mem = s.mem := rfl
@[simp] theorem State.consumeDraw_env : s.consumeDraw.env = { s.env with rndScript := s.env.rndScript.tail, rndCount := s.env.rndCount + 1 } := rfl
@[simp] theorem State.consumeDraw_reg (j : RegIdx) : s.consumeDraw.reg j = s.reg j := rfl

/-! ### timerTick -/

@[simp] theorem State.timerTick_V : s.timerTick.V = s.V := rfl
@[simp] theorem State.timerTick_pc : s.timerTick.pc = s.pc := rfl
@[simp] theorem State.timerTick_I : s.timerTick.I = s.I := rfl
@[simp] theorem State.timerTick_DT : s.timerTick.DT = tickDown s.DT := rfl
@[simp] theorem State.timerTick_ST : s.timerTick.ST = tickDown s.ST := rfl
@[simp] theorem State.timerTick_stack : s.timerTick.stack = s.stack := rfl
@[simp] theorem State.timerTick_mem : s.timerTick.mem = s.mem := rfl
@[simp] theorem State.timerTick_env : s.timerTick.env = s.env := rfl
@[simp] theorem State.timerTick_reg (j : RegIdx) : s.timerTick.reg j = s.reg j := rfl

/-! ### advance -/

@[simp] theorem State.advance_V : s.advance.V = s.V := rfl
@[simp] theorem State.advance_pc : s.advance.pc = nextPC s.pc := rfl
@[simp] theorem State.advance_I : s.advance.I = s.I := rfl
@[simp] theorem State.advance_DT : s.advance.DT = s.DT := rfl
@[simp] theorem State.advance_ST : s.advance.ST = s.ST := rfl
@[simp] theorem State.advance_stack : s.advance.stack = s.stack := rfl
@[simp] theorem State.advance_mem : s.advance.mem = s.mem := rfl
@[simp] theorem State.advance_env : s.advance.env = s.env := rfl
@[simp] theorem State.advance_reg (j : RegIdx) : s.advance.reg j = s.reg j := rfl

/-! ### answerRnd -/

@[simp] theorem State.answerRnd_V (r : Byte) : (s.answerRnd r).V = s.V := rfl
@[simp] theorem State.answerRnd_pc (r : Byte) : (s.answerRnd r).pc = s.pc := rfl
@[simp] theorem State.answerRnd_I (r : Byte) : (s.answerRnd r).I = s.I := rfl
@[simp] theorem State.answerRnd_DT (r : Byte) : (s.answerRnd r).DT = s.DT := rfl
@[simp] theorem State.answerRnd_ST (r : Byte) : (s.answerRnd r).ST = s.ST := rfl
@[simp] theorem State.answerRnd_stack (r : Byte) : (s.answerRnd r).stack = s.stack := rfl
@[simp] theorem State.answerRnd_mem (r : Byte) : (s.answerRnd r).mem = s.mem := rfl
@[simp] theorem State.answerRnd_env (r : Byte) : (s.answerRnd r).env = { s.env with rndScript := s.env.rndScript ++ [r] } := rfl
@[simp] theorem State.answerRnd_reg (r : Byte) (j : RegIdx) : (s.answerRnd r).reg j = s.reg j := rfl

/-! ### placeWord -/

@[simp] theorem State.placeWord_V (op : Word) : (s.placeWord op).V = s.V := rfl
@[simp] theorem State.placeWord_pc (op : Word) : (s.placeWord op).pc = s.pc := rfl
@[simp] theorem State.placeWord_I (op : Word) : (s.placeWord op).I = s.I := rfl
@[simp] theorem State.placeWord_DT (op : Word) : (s.placeWord op).DT = s.DT := rfl
@[simp] theorem State.placeWord_ST (op : Word) : (s.placeWord op).ST = s.ST := rfl
@[simp] theorem State.placeWord_stack (op : Word) : (s.placeWord op).stack = s.stack := rfl
@[simp] theorem State.placeWord_env (op : Word) : (s.placeWord op).env = s.env := rfl
@[simp] theorem State.placeWord_reg (op : Word) (j : RegIdx) : (s.placeWord op).reg j = s.reg j := rfl

/-! ### setResultThenFlag -/

@[simp] theorem State.setResultThenFlag_pc (x : RegIdx) (r f : Byte) : (s.setResultThenFlag x r f).pc = s.pc := rfl
@[simp] theorem State.setResultThenFlag_I (x : RegIdx) (r f : Byte) : (s.setResultThenFlag x r f).I = s.I := rfl
@[simp] theorem State.setResultThenFlag_DT (x : RegIdx) (r f : Byte) : (s.setResultThenFlag x r f).DT = s.DT := rfl
@[simp] theorem State.setResultThenFlag_ST (x : RegIdx) (r f : Byte) : (s.setResultThenFlag x r f).ST = s.ST := rfl
@[simp] theorem State.setResultThenFlag_stack (x : RegIdx) (r f : Byte) : (s.setResultThenFlag x r f).stack = s.stack := rfl
@[simp] theorem State.setResultThenFlag_mem (x : RegIdx) (r f : Byte) : (s.setResultThenFlag x r f).mem = s.mem := rfl
@[simp] theorem State.setResultThenFlag_env (x : RegIdx) (r f : Byte) : (s.setResultThenFlag x r f).env = s.env := rfl

/-! ### skipIf -/

@[simp] theorem State.skipIf_V (c : Bool) : (s.skipIf c).V = s.V := by cases c <;> rfl
@[simp] theorem State.skipIf_I (c : Bool) : (s.skipIf c).I = s.I := by cases c <;> rfl
@[simp] theorem State.skipIf_DT (c : Bool) : (s.skipIf c).DT = s.DT := by cases c <;> rfl
@[simp] theorem State.skipIf_ST (c : Bool) : (s.skipIf c).ST = s.ST := by cases c <;> rfl
@[simp] theorem State.skipIf_stack (c : Bool) : (s.skipIf c).stack = s.stack := by cases c <;> rfl
@[simp] theorem State.skipIf_mem (c : Bool) : (s.skipIf c).mem = s.mem := by cases c <;> rfl
@[simp] theorem State.skipIf_env (c : Bool) : (s.skipIf c).env = s.env := by cases c <;> rfl
@[simp] theorem State.skipIf_reg (c : Bool) (j : RegIdx) : (s.skipIf c).reg j = s.reg j := by cases c <;> rfl
@[simp] theorem State.skipIf_pc (c : Bool) : (s.skipIf c).pc = if c then nextPC s.pc else s.pc := by cases c <;> rfl

/-- 41 R141: a skip is one write of pc. -/
theorem State.skipIf_eq (c : Bool) : s.skipIf c = s.setPC (if c then nextPC s.pc else s.pc) := by cases c <;> rfl

/-! ### Registers -/

/-- A register read after a register write. -/
theorem State.reg_setReg (i j : RegIdx) (v : Byte) : (s.setReg i v).reg j = if j = i then v else s.reg j := by
  simp only [State.reg, State.setReg, Vector.getElem_set]
  by_cases h : j = i
  · subst h; simp
  · have : i.toNat ≠ j.toNat := fun e => h (BitVec.eq_of_toNat_eq e.symm)
    simp [h, this]

@[simp] theorem State.reg_setReg_same (i : RegIdx) (v : Byte) : (s.setReg i v).reg i = v := by
  simp [State.reg_setReg]

theorem State.reg_setReg_other (i j : RegIdx) (v : Byte) (h : j ≠ i) : (s.setReg i v).reg j = s.reg j := by
  simp [State.reg_setReg, h]

/-- 40 R101: after a result and a flag are written, VF holds the flag and V[x] the result unless x = 0xF. -/
theorem State.reg_setResultThenFlag (x j : RegIdx) (r f : Byte) :
    (s.setResultThenFlag x r f).reg j = if j = regF then f else if j = x then r else s.reg j := by
  simp only [State.setResultThenFlag, State.reg_setReg]

/-- Two states with equal fields are equal; registers are compared one by one. -/
theorem State.ext_regs (s t : State) (hV : ∀ j, s.reg j = t.reg j) (hpc : s.pc = t.pc) (hI : s.I = t.I)
    (hDT : s.DT = t.DT) (hST : s.ST = t.ST) (hstack : s.stack = t.stack) (hmem : s.mem = t.mem)
    (henv : s.env = t.env) : s = t := by
  have hv : s.V = t.V := by
    apply Vector.ext
    intro i hi
    have h := hV (BitVec.ofNat 4 i)
    have e : i % 2 ^ 4 = i := Nat.mod_eq_of_lt hi
    simpa only [State.reg, BitVec.toNat_ofNat, e] using h
  cases s; cases t; simp_all

end Sys2Proof.Machine
end

