-- ==== Sys2Proof/Laws/Ops.lean ====
section
/-! SUPPORT. What each shared operation does, said once: values as numbers, and inversion lemmas for the host
call, the driver's step and the step. -/

namespace Sys2Proof.Machine

/-! ### Values -/

theorem nextPC_toNat (pc : Word) : (nextPC pc).toNat = (pc.toNat + 2) % 65536 := by
  simp [nextPC, BitVec.toNat_add]

theorem maskAddr_toNat (w : Word) : (maskAddr w).toNat = w.toNat % 4096 := by
  simp [maskAddr]

theorem maskPC_toNat (w : Word) : (maskPC w).toNat = w.toNat % 4096 := by
  rw [maskPC, BitVec.toNat_and]
  exact Nat.and_two_pow_sub_one_eq_mod w.toNat 12

theorem operandAddr_toNat (nnn : Addr) : (operandAddr nnn).toNat = nnn.toNat := by
  have := nnn.isLt
  simp only [operandAddr, BitVec.toNat_setWidth]
  omega

/-- An address is already twelve bits wide, so masking it changes nothing (41 R148). -/
@[simp] theorem maskPC_operandAddr (nnn : Addr) : maskPC (operandAddr nnn) = operandAddr nnn := by
  apply BitVec.eq_of_toNat_eq
  rw [maskPC_toNat, operandAddr_toNat]
  exact Nat.mod_eq_of_lt nnn.isLt

theorem operandV0_toNat (s : State) : (operandV0 s).toNat = (s.reg 0#4).toNat := by
  have := (s.reg 0#4).isLt
  simp only [operandV0, BitVec.toNat_setWidth]
  omega

theorem flagByte_toNat (c : Bool) : (flagByte c).toNat = if c then 1 else 0 := by cases c <;> rfl

theorem carryFlag_toNat (a b : Byte) : (carryFlag a b).toNat = if a.toNat + b.toNat > 255 then 1 else 0 := by
  simp [carryFlag, flagByte_toNat]

theorem notBorrowFlag_toNat (a b : Byte) : (notBorrowFlag a b).toNat = if a.toNat > b.toNat then 1 else 0 := by
  simp [notBorrowFlag, flagByte_toNat]

theorem shiftOutRight_toNat (a : Byte) : (shiftOutRight a).toNat = a.toNat % 2 := by
  rw [shiftOutRight, BitVec.toNat_and]
  exact Nat.and_one_is_mod a.toNat

theorem shiftOutLeft_toNat (a : Byte) : (shiftOutLeft a).toNat = a.toNat / 128 := by
  have := a.isLt
  rw [shiftOutLeft, BitVec.toNat_and]
  simp only [BitVec.toNat_ushiftRight, Nat.shiftRight_eq_div_pow]
  rw [show BitVec.toNat 1#8 = 1 from rfl, Nat.and_one_is_mod]
  omega

theorem addMod_toNat (a b : Byte) : (addMod a b).toNat = (a.toNat + b.toNat) % 256 := by
  simp [addMod]

theorem subMod_toNat (a b : Byte) : (subMod a b).toNat = (256 + a.toNat - b.toNat) % 256 := by
  simp [subMod]

theorem shiftRight1_toNat (a : Byte) : (shiftRight1 a).toNat = a.toNat / 2 := by
  simp [shiftRight1, Nat.shiftRight_eq_div_pow]

theorem shiftLeft1_toNat (a : Byte) : (shiftLeft1 a).toNat = (2 * a.toNat) % 256 := by
  simp [shiftLeft1]

/-- 60 R213: a tick lowers a timer by one and stops at 0. -/
theorem tickDown_toNat (t : Byte) : (tickDown t).toNat = t.toNat - 1 := by
  have := t.isLt
  unfold tickDown
  split
  · next h => subst h; rfl
  · next h =>
    have : t.toNat ≠ 0 := fun e => h (BitVec.eq_of_toNat_eq e)
    rw [BitVec.toNat_sub, show BitVec.toNat 1#8 = 1 from rfl]
    omega

/-! ### Fetch -/

/-- 20 R53: the two bytes of an opcode never share an address. -/
theorem fetchAddr_ne (pc : Word) : (fetchAddr0 pc).toNat ≠ (fetchAddr1 pc).toNat := by
  simp only [fetchAddr0, fetchAddr1, maskAddr_toNat, BitVec.toNat_add]
  rw [show BitVec.toNat 1#16 = 1 from rfl]
  omega

/-- A placed word is what the next fetch gives. -/
@[simp] theorem State.fetch_placeWord (s : State) (op : Word) : (s.placeWord op).fetch = op := by
  have h := fetchAddr_ne s.pc
  simp only [State.fetch, State.placeWord, State.setMem_mem, State.setMem_pc, Memory.read_write_same,
    Memory.read_write_other _ _ _ _ h, wordOfBytes_bytes]

/-- The fetch depends on memory and pc alone. -/
theorem State.fetch_congr (s t : State) (hm : t.mem = s.mem) (hpc : t.pc = s.pc) : t.fetch = s.fetch := by
  simp only [State.fetch, hm, hpc]

/-! ### Stack -/

theorem State.stackFull_iff (s : State) :
    s.stackFull = true ↔ s.env.params.stackDepth = some s.stack.length := by
  unfold State.stackFull
  cases s.env.params.stackDepth <;> simp
  exact eq_comm

/-- A push onto a stack that is bounded and not full keeps the bound of 10 R20. -/
theorem State.push_bounded (s : State) (v : Word) (h : s.stackBounded = true) (hf : s.stackFull = false) :
    (s.push v).stackBounded = true := by
  unfold State.stackBounded State.stackFull at *
  simp only [State.push_env, State.push_stack, List.length_cons]
  cases hd : s.env.params.stackDepth with
  | none => rfl
  | some d =>
    simp only [hd, beq_eq_false_iff_ne, ne_eq, decide_eq_true_eq] at h hf ⊢
    exact decide_eq_true (by omega)

theorem State.dropTop_bounded (s : State) (h : s.stackBounded = true) : s.dropTop.stackBounded = true := by
  unfold State.stackBounded at *
  simp only [State.dropTop_env, State.dropTop_stack, List.length_tail]
  cases hd : s.env.params.stackDepth with
  | none => rfl
  | some d =>
    simp only [hd, decide_eq_true_eq] at h ⊢
    omega

/-- The bound reads the stack and the parameters alone. -/
theorem State.stackBounded_congr (s t : State) (hs : t.stack = s.stack) (hp : t.env.params = s.env.params) :
    t.stackBounded = s.stackBounded := by
  simp only [State.stackBounded, hs, hp]

/-! ### The mux (10 R33, R34) -/

/-- An index from a 4-bit field is in range, and the mux gives the register it names. -/
theorem muxGet_reg (s : State) (i : RegIdx) : muxGet .reg i.toNat s = .ok (s.reg i) := by
  have := i.isLt
  simp [muxGet, numRegs, this]

/-- A masked address is in range, and the mux gives the byte there. -/
theorem muxGet_mem (s : State) (a : Addr) : muxGet .mem a.toNat s = .ok (s.mem.read a.toNat) := by
  have := a.isLt
  simp [muxGet, memSize, this]

/-- Everything a successful Set does. -/
theorem muxSet_ok (sp : Space) (i : Nat) (v : Byte) (s t : State) (h : muxSet sp i v s = .ok t) :
    (sp = .reg ∧ i < numRegs ∧ t = s.setReg (BitVec.ofNat 4 i) v) ∨
    (sp = .mem ∧ i < memSize ∧ t = s.setMem (s.mem.write i v)) := by
  cases sp <;> simp only [muxSet] at h <;> split at h <;> simp_all

/-- Everything a host step that goes on can have done. -/
theorem hostStep_next (c : HostCall) (s t : State) (h : hostStep c s = .next t) :
    ∃ a, hostCall c s = .ok (a, t) := by
  unfold hostStep at h
  split at h
  · next a u hc =>
    simp only [done, Host.Outcome.next.injEq] at h
    exact ⟨a, h ▸ hc⟩
  · simp [raise] at h

/-- Every host call leaves the parameters and the schedule alone. -/
theorem hostCall_env (c : HostCall) (s t : State) (a : HostAnswer) (h : hostCall c s = .ok (a, t)) :
    t.env.params = s.env.params ∧ t.env.turns = s.env.turns := by
  cases c with
  | get sp i => cases hm : muxGet sp i s <;> simp_all [hostCall, Except.map]
  | set sp i v =>
    cases hm : muxSet sp i v s with
    | error f => simp [hostCall, hm, Except.map] at h
    | ok u =>
      simp only [hostCall, hm, Except.map, Except.ok.injEq, Prod.mk.injEq] at h
      rcases muxSet_ok sp i v s u hm with ⟨-, -, e⟩ | ⟨-, -, e⟩ <;> simp [← h.2, e]
  | push v =>
    simp only [hostCall, hostPush] at h
    split at h <;> simp only [Except.map, Except.ok.injEq, Prod.mk.injEq, reduceCtorEq] at h
    simp [← h.2]
  | pop =>
    simp only [hostCall, hostPop] at h
    split at h <;> simp only [Except.ok.injEq, Prod.mk.injEq] at h <;> simp [← h.2]
  | _ =>
    simp only [hostCall, Except.ok.injEq, Prod.mk.injEq] at h
    simp [← h.2]

/-! ### The driver's step and the step (60 R220, R214) -/

/-- A driver's step that goes on is one decoded instruction, executed past its word. -/
theorem driverStep_next (s t : State) : driverStep s = .next t ↔
    ∃ i, decode s.fetch = .instr i ∧ exec i s.advance = .next t := by
  unfold driverStep
  split
  · next op h => simp [h, raise]
  · next i h => simp [h]

/-- Everything a step can be: the driver's, or one host call's. -/
theorem step_cases (s : State) :
    (s.driverMoves ∧ step s = driverStep s.turnSpent) ∨
    (∃ c ts, s.env.turns = .host c :: ts ∧ step s = hostStep c s.turnSpent) := by
  unfold step takeTurn State.driverMoves State.turnSpent
  split
  · next h =>
    left
    refine ⟨by simp [h], ?_⟩
    have : s.setTurns [] = s := by
      cases s with
      | mk V pc I DT ST stack mem env => cases env; simp_all [State.setTurns, State.setEnv]
    simp [h, this]
  · next ts h => exact .inl ⟨by simp [h], by simp [h]⟩
  · next c ts h => exact .inr ⟨c, ts, h, by simp [h]⟩

/-- Where the driver moves, the step is the driver's. -/
theorem step_driver (s : State) (h : s.driverMoves) : step s = driverStep s.turnSpent := by
  rcases step_cases s with ⟨-, e⟩ | ⟨c, ts, ht, -⟩
  · exact e
  · exact absurd ht (h c ts)

/-- Where a host call is next, the step is that call's. -/
theorem step_host (s : State) (c : HostCall) (ts : List Turn) (h : s.env.turns = .host c :: ts) :
    step s = hostStep c (s.setTurns ts) := by
  simp only [step, takeTurn, h]

/-- One more step in front of a run. -/
theorem run_succ (k : Nat) (s t : State) (h : step s = .next t) : run (k + 1) s = run k t := by
  simp only [run, h]

/-- A run in two parts. -/
theorem run_add (j k : Nat) (s t : State) (h : run j s = .next t) : run (j + k) s = run k t := by
  induction j generalizing s with
  | zero =>
    simp only [run, Host.Outcome.next.injEq] at h
    rw [Nat.zero_add, h]
  | succ j ih =>
    rw [Nat.add_right_comm]
    cases hu : step s with
    | next u =>
      simp only [run, hu] at h ⊢
      exact ih u h
    | fault f => simp [run, hu] at h
    | refused r => simp [run, hu] at h

/-- `run` is the host interface's run of the core. -/
theorem run_eq_core (k : Nat) (s : State) : run k s = Host.Core.run Sys2Proof.core k s := by
  induction k generalizing s with
  | zero => rfl
  | succ k ih =>
    have e := Host.Core.run.eq_2 Sys2Proof.core s k
    refine Eq.trans ?_ e.symm
    have hs : Sys2Proof.core.step s = step s := rfl
    rw [hs]
    cases h : step s with
    | next t => simp only [run, h]; exact ih t
    | fault f => simp only [run, h]; rfl
    | refused r => simp only [run, h]; rfl

@[simp] theorem State.fetch_setTurns (s : State) (ts : List Turn) : (s.setTurns ts).fetch = s.fetch := rfl

@[simp] theorem State.fetch_turnSpent (s : State) : s.turnSpent.fetch = s.fetch := rfl

theorem State.withDriverNext_driverMoves (s : State) : s.withDriverNext.driverMoves := by
  unfold State.withDriverNext State.driverMoves
  split <;> simp_all

/-- Giving the driver the next turn changes nothing of the machine of 10 R20. -/
theorem State.withDriverNext_eq (s : State) : ∃ ts, s.withDriverNext = s.setTurns ts := by
  unfold State.withDriverNext
  split
  · exact ⟨s.env.turns, rfl⟩
  · exact ⟨s.env.turns, rfl⟩
  · exact ⟨_, rfl⟩

end Sys2Proof.Machine
end

