-- ==== Sys2Proof/Laws/PerInstr.lean ====
section
/-! SUPPORT. A law of every instruction as syntax, one lemma per constructor: its word has the fixed bits of its
row of opcode_table.json. -/

namespace Sys2Proof.Laws.RowPattern

/-- The word of `i` agrees with the `match` column of its row on the bits of the `mask` column. -/
def Statement (i : Instr) : Prop := encode i &&& (tableRow i).2 = (tableRow i).1

/-- Masking two bit strings side by side masks each. -/
theorem append_and {m n : Nat} (a c : BitVec m) (b d : BitVec n) : (a ++ b) &&& (c ++ d) = (a &&& c) ++ (b &&& d) := by
  apply BitVec.eq_of_getLsbD_eq
  intro i _
  simp only [BitVec.getLsbD_and, BitVec.getLsbD_append]
  split <;> rfl

theorem nibble_keep (o : BitVec 4) : o &&& 0xF = o := BitVec.and_allOnes

theorem mask_drop {n : Nat} (b : BitVec n) : b &&& 0 = 0 := BitVec.and_zero

theorem byte_keep (b : Byte) : b &&& 0xFF = b := BitVec.and_allOnes

/-- Format NNN under the mask F000 keeps the top nibble alone. -/
theorem formatNNN_and (o : BitVec 4) (nnn : Addr) : formatNNN o nnn &&& 0xF000#16 = formatNNN o 0 := by
  have h := append_and o 0xF nnn 0
  rw [nibble_keep, mask_drop] at h
  exact h

/-- Formats XKK and XFF: the mask keeps the top nibble, drops the register, and masks the byte. -/
theorem formatXKK_and (o : BitVec 4) (x : RegIdx) (kk m : Byte) :
    formatXKK o x kk &&& formatXKK 0xF 0 m = formatXKK o 0 (kk &&& m) := by
  have h := append_and o 0xF x 0
  rw [nibble_keep, mask_drop] at h
  exact (append_and (o ++ x) (0xF ++ 0) kk m).trans (by rw [h]; rfl)

theorem formatXKK_and_F000 (o : BitVec 4) (x : RegIdx) (kk : Byte) : formatXKK o x kk &&& 0xF000#16 = formatXKK o 0 0 := by
  have h := formatXKK_and o x kk 0
  rw [mask_drop] at h
  exact h

theorem formatXKK_and_F0FF (o : BitVec 4) (x : RegIdx) (kk : Byte) : formatXKK o x kk &&& 0xF0FF#16 = formatXKK o 0 kk := by
  have h := formatXKK_and o x kk 0xFF
  rw [byte_keep] at h
  exact h

/-- Formats XYN and X_N under the mask F00F keep the top and the low nibble. -/
theorem formatXYN_and (o : BitVec 4) (x y : RegIdx) (n : BitVec 4) :
    formatXYN o x y n &&& 0xF00F#16 = formatXYN o 0 0 n := by
  have h := formatXKK_and o x (y ++ n) ((0 : BitVec 4) ++ (0xF : BitVec 4))
  rw [append_and, nibble_keep, mask_drop] at h
  exact h

theorem ldByte (x : RegIdx) (kk : Byte) : Statement (.ldByte x kk) := formatXKK_and_F000 0x6#4 x kk
theorem addByte (x : RegIdx) (kk : Byte) : Statement (.addByte x kk) := formatXKK_and_F000 0x7#4 x kk
theorem ld (x y : RegIdx) : Statement (.ld x y) := formatXYN_and 0x8#4 x y 0x0#4
theorem or (x y : RegIdx) : Statement (.or x y) := formatXYN_and 0x8#4 x y 0x1#4
theorem and (x y : RegIdx) : Statement (.and x y) := formatXYN_and 0x8#4 x y 0x2#4
theorem xor (x y : RegIdx) : Statement (.xor x y) := formatXYN_and 0x8#4 x y 0x3#4
theorem add (x y : RegIdx) : Statement (.add x y) := formatXYN_and 0x8#4 x y 0x4#4
theorem sub (x y : RegIdx) : Statement (.sub x y) := formatXYN_and 0x8#4 x y 0x5#4
theorem shr (x : RegIdx) : Statement (.shr x) := formatXYN_and 0x8#4 x 0x0#4 0x6#4
theorem subn (x y : RegIdx) : Statement (.subn x y) := formatXYN_and 0x8#4 x y 0x7#4
theorem shl (x : RegIdx) : Statement (.shl x) := formatXYN_and 0x8#4 x 0x0#4 0xE#4
theorem rnd (x : RegIdx) (kk : Byte) : Statement (.rnd x kk) := formatXKK_and_F000 0xC#4 x kk
theorem jp (nnn : Addr) : Statement (.jp nnn) := formatNNN_and 0x1#4 nnn
theorem call (nnn : Addr) : Statement (.call nnn) := formatNNN_and 0x2#4 nnn
theorem jpV0 (nnn : Addr) : Statement (.jpV0 nnn) := formatNNN_and 0xB#4 nnn
theorem ret : Statement .ret := rfl
theorem seByte (x : RegIdx) (kk : Byte) : Statement (.seByte x kk) := formatXKK_and_F000 0x3#4 x kk
theorem sneByte (x : RegIdx) (kk : Byte) : Statement (.sneByte x kk) := formatXKK_and_F000 0x4#4 x kk
theorem se (x y : RegIdx) : Statement (.se x y) := formatXYN_and 0x5#4 x y 0x0#4
theorem sne (x y : RegIdx) : Statement (.sne x y) := formatXYN_and 0x9#4 x y 0x0#4
theorem ldi (nnn : Addr) : Statement (.ldi nnn) := formatNNN_and 0xA#4 nnn
theorem ldVxDelay (x : RegIdx) : Statement (.ldVxDelay x) := formatXKK_and_F0FF 0xF#4 x 0x07#8
theorem ldDelayVx (x : RegIdx) : Statement (.ldDelayVx x) := formatXKK_and_F0FF 0xF#4 x 0x15#8
theorem sys (nnn : Addr) : Statement (.sys nnn) := formatNNN_and 0x0#4 nnn
theorem cls : Statement .cls := rfl

end Sys2Proof.Laws.RowPattern
end

