-- ==== Sys2Proof/Tests/Slice0.lean ====
section
/-! SUPPORT. The model's own tests. Expected values are those of 95_test_vectors.md (T-…, S…, and its sections 2, 6
and 7) or worked by hand from the rule named; then one witness for every statement that has hypotheses. -/

namespace Sys2Proof.Tests

open Sys2Proof.Machine

/-! ### Helpers: a small state, and one field after one instruction -/

/-- The machine after reset with some registers set. -/
def withRegs (rs : List (RegIdx × Byte)) : State := rs.foldl (fun s r => s.setReg r.1 r.2) State.reset

/-- One field of the state an instruction leaves. -/
def after {α : Type} (f : State → α) : Result → Option α
  | .next t => some (f t)
  | _ => none

/-- Two registers after an instruction. -/
def regs2 (i j : RegIdx) (t : State) : Byte × Byte := (t.reg i, t.reg j)

/-- A program word at `pc`, the driver to move. -/
def atPC (pc op : Word) : State := (State.reset.setPC pc).placeWord op

/-! ### WellFormed: an ill-formed term for each check (30 R75) -/

theorem test_wellFormed_refuses_sys_0E0 : (Instr.sys 0x0E0#12).wellFormed = false := by decide
theorem test_wellFormed_refuses_sys_0EE : (Instr.sys 0x0EE#12).wellFormed = false := by decide
theorem test_wellFormed_accepts_sys_0EF : (Instr.sys 0x0EF#12).wellFormed = true := by decide

/-! ### Decoding, one word for every constructor, bits written out from the formats of 30 R72 (section 2) -/

theorem test_decode_ldByte : decode 0b0110111100000000#16 = .instr (.ldByte 0xF#4 0x00#8) := by decide
theorem test_decode_addByte : decode 0b0111111011111111#16 = .instr (.addByte 0xE#4 0xFF#8) := by decide
theorem test_decode_ld : decode 0b1000000100100000#16 = .instr (.ld 0x1#4 0x2#4) := by decide
theorem test_decode_or : decode 0b1000000100100001#16 = .instr (.or 0x1#4 0x2#4) := by decide
theorem test_decode_and : decode 0b1000000100100010#16 = .instr (.and 0x1#4 0x2#4) := by decide
theorem test_decode_xor : decode 0b1000000100100011#16 = .instr (.xor 0x1#4 0x2#4) := by decide
theorem test_decode_add : decode 0b1000000100100100#16 = .instr (.add 0x1#4 0x2#4) := by decide
theorem test_decode_sub : decode 0b1000000100100101#16 = .instr (.sub 0x1#4 0x2#4) := by decide
theorem test_decode_shr_ignores_y : decode 0b1000000111110110#16 = .instr (.shr 0x1#4) := by decide
theorem test_decode_subn : decode 0b1000000100100111#16 = .instr (.subn 0x1#4 0x2#4) := by decide
theorem test_decode_shl_ignores_y : decode 0b1000000101111110#16 = .instr (.shl 0x1#4) := by decide
theorem test_decode_rnd : decode 0b1100001111111111#16 = .instr (.rnd 0x3#4 0xFF#8) := by decide
theorem test_decode_jp : decode 0b0001101010111100#16 = .instr (.jp 0xABC#12) := by decide
theorem test_decode_call : decode 0b0010111100000000#16 = .instr (.call 0xF00#12) := by decide
theorem test_decode_jpV0 : decode 0b1011000100100011#16 = .instr (.jpV0 0x123#12) := by decide
theorem test_decode_ret : decode 0b0000000011101110#16 = .instr .ret := by decide
theorem test_decode_seByte : decode 0b0011101001000010#16 = .instr (.seByte 0xA#4 0x42#8) := by decide
theorem test_decode_sneByte : decode 0b0100101001000010#16 = .instr (.sneByte 0xA#4 0x42#8) := by decide
theorem test_decode_se : decode 0b0101000100100000#16 = .instr (.se 0x1#4 0x2#4) := by decide
theorem test_decode_sne : decode 0b1001000100100000#16 = .instr (.sne 0x1#4 0x2#4) := by decide
theorem test_decode_ldi : decode 0b1010000100100011#16 = .instr (.ldi 0x123#12) := by decide
theorem test_decode_ldVxDelay : decode 0b1111000100000111#16 = .instr (.ldVxDelay 0x1#4) := by decide
theorem test_decode_ldDelayVx : decode 0b1111000100010101#16 = .instr (.ldDelayVx 0x1#4) := by decide
theorem test_decode_sys_next_to_ret : decode 0b0000000011101111#16 = .instr (.sys 0x0EF#12) := by decide
theorem test_decode_cls : decode 0b0000000011100000#16 = .instr .cls := by decide
/-- 30 R77, one word for each line of the table. -/
theorem test_decode_unknown : (([0x5121, 0x512F, 0x8128, 0x812D, 0x812F, 0x9121, 0xD123, 0xE19E, 0xF10A, 0xF165,
    0xF1FF] : List Nat).map fun w => decodeTableWord 16 w) = List.replicate 11 none := by decide

/-! ### Encoding (30 R81) -/

theorem test_encode_add : encodeBytes (.add 0x1#4 0x2#4) = [0x81#8, 0x24#8] := by decide
/-- 30 R81: "8x06 (y emitted as 0)". -/
theorem test_encode_shr : encode (.shr 0x1#4) = 0x8106#16 := by decide

/-! ### Loads and arithmetic (section 3) -/

/-- T-A1. -/
theorem test_ldByte_into_VF : after (·.reg 0xF#4) (exec (.ldByte 0xF#4 0x07#8) (withRegs [(0xF#4, 0x01#8)])) =
    some 0x07#8 := by decide
/-- T-A2. -/
theorem test_addByte_wraps : after (regs2 0x1#4 0xF#4) (exec (.addByte 0x1#4 0x0A#8) (withRegs [(0x1#4, 0xFA#8)])) =
    some (0x04#8, 0x00#8) := by decide
/-- T-A4. -/
theorem test_ld_from_VF : after (·.reg 0x1#4) (exec (.ld 0x1#4 0xF#4) (withRegs [(0xF#4, 0x01#8)])) =
    some 0x01#8 := by decide
/-- T-A5. -/
theorem test_or_leaves_VF : after (regs2 0x1#4 0xF#4)
    (exec (.or 0x1#4 0x2#4) (withRegs [(0x1#4, 0x0F#8), (0x2#4, 0xF0#8), (0xF#4, 0x55#8)])) =
    some (0xFF#8, 0x55#8) := by decide
/-- T-A6. -/
theorem test_and_leaves_VF : after (regs2 0x1#4 0xF#4)
    (exec (.and 0x1#4 0x2#4) (withRegs [(0x1#4, 0x3C#8), (0x2#4, 0x0F#8), (0xF#4, 0x55#8)])) =
    some (0x0C#8, 0x55#8) := by decide
/-- 40 R108, the example. -/
theorem test_xor : after (·.reg 0x1#4) (exec (.xor 0x1#4 0x2#4) (withRegs [(0x1#4, 0xFF#8), (0x2#4, 0x0F#8)])) =
    some 0xF0#8 := by decide
/-- T-A10: a sum of exactly 255 has no carry. -/
theorem test_add_255_no_carry : after (regs2 0x1#4 0xF#4)
    (exec (.add 0x1#4 0x2#4) (withRegs [(0x1#4, 0xF0#8), (0x2#4, 0x0F#8)])) = some (0xFF#8, 0x00#8) := by decide
/-- T-A14: the addend is VF as it was before. -/
theorem test_add_reads_VF_first : after (regs2 0x1#4 0xF#4)
    (exec (.add 0x1#4 0xF#4) (withRegs [(0x1#4, 0x01#8), (0xF#4, 0xFF#8)])) = some (0x00#8, 0x01#8) := by decide
/-- T-A17: equality is no "greater". -/
theorem test_sub_equal_clears_VF : after (regs2 0x1#4 0xF#4)
    (exec (.sub 0x1#4 0x2#4) (withRegs [(0x1#4, 0x05#8), (0x2#4, 0x05#8), (0xF#4, 0x01#8)])) =
    some (0x00#8, 0x00#8) := by decide
/-- T-A20. -/
theorem test_sub_into_VF_keeps_flag : after (·.reg 0xF#4)
    (exec (.sub 0xF#4 0x1#4) (withRegs [(0xF#4, 0x05#8), (0x1#4, 0x03#8)])) = some 0x01#8 := by decide
/-- T-A23. -/
theorem test_subn_borrows : after (regs2 0x1#4 0xF#4)
    (exec (.subn 0x1#4 0x2#4) (withRegs [(0x1#4, 100#8), (0x2#4, 25#8)])) = some (181#8, 0x00#8) := by decide
/-- T-A25. -/
theorem test_subn_into_VF_keeps_flag : after (·.reg 0xF#4)
    (exec (.subn 0xF#4 0x1#4) (withRegs [(0xF#4, 0x05#8), (0x1#4, 0x03#8)])) = some 0x00#8 := by decide
/-- T-A28. -/
theorem test_shr_zero_fills : after (regs2 0x1#4 0xF#4) (exec (.shr 0x1#4) (withRegs [(0x1#4, 0xFF#8)])) =
    some (0x7F#8, 0x01#8) := by decide
/-- T-A30. -/
theorem test_shr_VF_keeps_flag : after (·.reg 0xF#4) (exec (.shr 0xF#4) (withRegs [(0xF#4, 0x01#8)])) =
    some 0x01#8 := by decide
/-- S8. -/
theorem test_shl_truncates : after (regs2 0x1#4 0xF#4) (exec (.shl 0x1#4) (withRegs [(0x1#4, 150#8)])) =
    some (44#8, 0x01#8) := by decide
/-- T-A33. -/
theorem test_shl_no_carry : after (regs2 0x1#4 0xF#4) (exec (.shl 0x1#4) (withRegs [(0x1#4, 0x7F#8)])) =
    some (0xFE#8, 0x00#8) := by decide

/-! ### Control flow (section 4) -/

/-- T-C1. -/
theorem test_se_taken : after (·.pc) (exec (.se 0x1#4 0x2#4)
    ((withRegs [(0x1#4, 0x10#8), (0x2#4, 0x10#8)]).setPC 0x202#16)) = some 0x204#16 := by decide
/-- T-C2. -/
theorem test_se_not_taken : after (·.pc) (exec (.se 0x1#4 0x2#4)
    ((withRegs [(0x1#4, 0x10#8), (0x2#4, 0x11#8)]).setPC 0x202#16)) = some 0x202#16 := by decide
/-- T-C4. -/
theorem test_sne_taken : after (·.pc) (exec (.sne 0x1#4 0x2#4)
    ((withRegs [(0x1#4, 0x10#8), (0x2#4, 0x11#8)]).setPC 0x202#16)) = some 0x204#16 := by decide
/-- T-C7. -/
theorem test_seByte_wraps_pc : after (·.pc) (exec (.seByte 0x3#4 0x05#8)
    ((withRegs [(0x3#4, 0x05#8)]).setPC 0xFFFE#16)) = some 0x0000#16 := by decide
/-- T-C8. -/
theorem test_sneByte_not_taken : after (·.pc) (exec (.sneByte 0x3#4 0x05#8)
    ((withRegs [(0x3#4, 0x05#8)]).setPC 0x208#16)) = some 0x208#16 := by decide
/-- T-C9. -/
theorem test_jp : after (·.pc) (exec (.jp 0xABC#12) (State.reset.setPC 0x202#16)) = some 0x0ABC#16 := by decide
/-- T-C17. -/
theorem test_jpV0_unmasked : after (·.pc) (exec (.jpV0 0xFFF#12) (withRegs [(0x0#4, 0xFF#8)])) =
    some 0x10FE#16 := by decide
/-- T-C10. -/
theorem test_call : after (fun t => (t.pc, t.stack)) (exec (.call 0x300#12) (State.reset.setPC 0x202#16)) =
    some (0x300#16, [0x202#16]) := by decide
/-- T-C14: the pc recorded is the one Call would have pushed. -/
theorem test_call_overflows : exec (.call 0x300#12)
    ((State.reset.setPC 0x202#16).setStack (List.replicate 16 0x202#16)) = .fault (.stackOverflow 0x202#16) := rfl
/-- T-C15. -/
theorem test_ret_masks : after (fun t => (t.pc, t.stack)) (exec .ret (State.reset.setStack [0x1002#16])) =
    some (0x0002#16, []) := by decide
/-- T-C13. -/
theorem test_ret_underflows : exec .ret (State.construct { stackDepth := some 16, retOnEmpty := .fault }) =
    .fault .stackUnderflow := rfl

/-! ### Index, timers, random byte (section 5) -/

/-- T-R6. -/
theorem test_ldi : after (·.I) (exec (.ldi 0xFFF#12) (State.reset.setI 0x0123#16)) = some 0x0FFF#16 := by decide
/-- T-R8. -/
theorem test_ldVxDelay : after (·.reg 0xB#4) (exec (.ldVxDelay 0xB#4) (State.reset.setDT 0x2A#8)) =
    some 0x2A#8 := by decide
/-- T-R7; ST is not touched. -/
theorem test_ldDelayVx : after (fun t => (t.DT, t.ST)) (exec (.ldDelayVx 0xA#4) (withRegs [(0xA#4, 0x2A#8)])) =
    some (0x2A#8, 0x00#8) := by decide
/-- T-R1: a scripted source answers 0xA7. -/
theorem test_rnd_masks : after (fun t => (t.reg 0xC#4, t.env.rndScript))
    (exec (.rnd 0xC#4 0x0F#8) (State.reset.answerRnd 0xA7#8)) = some (0x07#8, []) := by decide
/-- T-R3: a draw under the mask 0 is still consumed. -/
theorem test_rnd_zero_mask_draws : after (fun t => (t.reg 0x1#4, t.env.rndCount))
    (exec (.rnd 0x1#4 0x00#8) (State.reset.answerRnd 0xFF#8)) = some (0x00#8, 1) := by decide
/-- T-R10, as a step of the host. -/
theorem test_tick_stops_at_zero : after (fun t => (t.DT, t.ST, t.pc))
    (step ((State.reset.setST 0x01#8).setTurns [.host .timerTick])) = some (0x00#8, 0x00#8, 0x0000#16) := by decide

/-! ### Unimplemented, fetch and the driver's step (sections 6, 4 and 7) -/

/-- T-U2. -/
theorem test_step_sys : step (atPC 0x200#16 0x0123#16) = .fault (.unimplemented (.sys 0x123#12)) := rfl
/-- T-U1. -/
theorem test_step_cls : step (atPC 0x200#16 0x00E0#16) = .fault (.unimplemented .cls) := rfl
/-- T-U6. -/
theorem test_step_unknown : step (atPC 0x200#16 0xF133#16) = .fault (.decodeFailure 0xF133#16) := rfl
/-- 20 R53's vector at pc = 0x0FFF: bytes 0xFFF and 0x000. -/
theorem test_fetch_wraps : ((State.reset.setPC 0x0FFF#16).setMem [(0x000, 0x05#8), (0xFFF, 0x60#8)]).fetch =
    0x6005#16 := by decide
/-- 20 R53's vector at pc = 0x10FE: each byte's address is masked. -/
theorem test_fetch_masks : ((State.reset.setPC 0x10FE#16).setMem [(0x0FE, 0x12#8), (0x0FF, 0x34#8)]).fetch =
    0x1234#16 := by decide
/-- Section 7: 60 2A at 0x200. -/
theorem test_step_ldByte : after (fun t => (t.reg 0x0#4, t.pc)) (step (atPC 0x200#16 0x602A#16)) =
    some (0x2A#8, 0x202#16) := by decide
/-- Section 7: the return address is pushed. -/
theorem test_step_call : after (fun t => (t.pc, t.stack)) (step (atPC 0x200#16 0x2300#16)) =
    some (0x300#16, [0x202#16]) := by decide
/-- Section 7: the next instruction is skipped. -/
theorem test_step_skip : after (·.pc) (step (atPC 0x200#16 0x3000#16)) = some 0x204#16 := by decide
/-- The row's word runs as the first instruction after reset. -/
theorem test_withFetchWord_runs : after (fun t => (t.I, t.pc)) (step (State.reset.withFetchWord 16 0xA123)) =
    some (0x0123#16, 0x0002#16) := by decide

/-! ### Memory and the host's ports -/

/-- Writing what an unlisted address reads as removes the entry. -/
theorem test_memory_write_zero_unlists : Memory.write [(1, 0x05#8), (3, 0x06#8)] 1 0x00#8 = [(3, 0x06#8)] := by decide
theorem test_memory_write_sorts : Memory.write [(1, 0x05#8), (3, 0x06#8)] 2 0x07#8 =
    [(1, 0x05#8), (2, 0x07#8), (3, 0x06#8)] := by decide
theorem test_memory_wf_refuses_unsorted : Memory.wf [(3, 0x06#8), (1, 0x05#8)] = false := by decide
/-- 10 R34, at the first index out of range. -/
theorem test_host_set_out_of_range : step (State.reset.setTurns [.host (.set .mem 4096 0x01#8)]) =
    .fault (.indexOutOfRange .mem 4096) := rfl
/-- 10 R33, at the last index in range. -/
theorem test_host_set_last_byte : after (·.mem) (step (State.reset.setTurns [.host (.set .mem 4095 0x01#8)])) =
    some [(4095, 0x01#8)] := by decide

/-! ### Witnesses: a state and operands that meet the hypotheses of each statement that has some -/

theorem driverMoves_of_no_turns (s : State) (h : s.env.turns = []) : s.driverMoves := by
  intro c ts; simp [h]

theorem witness_DecodeOfEncodeGivesInstructionBack : (Instr.sys 0x0EF#12).wellFormed = true := by decide

/-- Each side of the disjunction: a word that re-encodes to itself, and a shift with y bits set. -/
theorem witness_DecodedWordReencodesUpToIgnoredBits :
    (decode 0xFF15#16 = .instr (.ldDelayVx 0xF#4) ∧ encode (.ldDelayVx 0xF#4) = 0xFF15#16) ∧
    (decode 0x8FF6#16 = .instr (.shr 0xF#4) ∧ encode (.shr 0xF#4) = 0x8FF6#16 &&& 0xFF0F#16 ∧
      encode (.shr 0xF#4) ≠ 0x8FF6#16) := by decide

theorem witness_ShiftYBitsAreTheOnlyIgnoredBits :
    decode 0x00E1#16 = .instr (.sys 0x0E1#12) ∧ (∀ x, Instr.sys 0x0E1#12 ≠ .shr x) ∧
    (∀ x, Instr.sys 0x0E1#12 ≠ .shl x) ∧
    decode 0x8106#16 = .instr (.shr 0x1#4) ∧ decode 0x81F6#16 = .instr (.shr 0x1#4) :=
  ⟨by decide, by simp, by simp, by decide, by decide⟩

/-- Each line of the table, at the end of its range, and a decoded neighbour of each. -/
theorem witness_UnknownWordsAreExactlyTheListedOnes :
    (([0x5001, 0x5FFF, 0x8008, 0x800F, 0x9001, 0x9FFF, 0xD000, 0xDFFF, 0xE000, 0xEFFF, 0xF006, 0xF014, 0xFFFF] :
      List Nat).all fun w => decide (decode (BitVec.ofNat 16 w) = .unknown (BitVec.ofNat 16 w))) = true ∧
    decode 0x5000#16 = .instr (.se 0x0#4 0x0#4) ∧ decode 0x800E#16 = .instr (.shl 0x0#4) ∧
    decode 0x9FF0#16 = .instr (.sne 0xF#4 0xF#4) ∧ decode 0xF007#16 = .instr (.ldVxDelay 0x0#4) := by decide

/-- At pc = 0x1FFF, where each byte's address is masked by itself, and with the driver's turn in the schedule. -/
theorem witness_StepRunsTheDecodedInstruction :
    ∃ s : State, s.driverMoves ∧ s.env.turns = [.driver] ∧ s.pc = 0x1FFF#16 ∧
      decodeBytes (s.mem.read (s.pc.toNat % 4096)) (s.mem.read ((s.pc.toNat + 1) % 4096)) =
        .instr (.ldByte 0x0#4 0x05#8) :=
  ⟨((State.reset.setPC 0x1FFF#16).setMem [(0x000, 0x05#8), (0xFFF, 0x60#8)]).setTurns [.driver],
    by simp [State.driverMoves, State.setTurns, State.setEnv], rfl, rfl, by decide⟩

theorem witness_StepReportsUnknownWord :
    (atPC 0x200#16 0xD123#16).driverMoves ∧ decode (atPC 0x200#16 0xD123#16).fetch = .unknown 0xD123#16 :=
  ⟨driverMoves_of_no_turns _ rfl, by decide⟩

theorem witness_PlacedWordIsRunByTheNextStep : decodeTableWord 16 0xFF15 = some (.ldDelayVx 0xF#4) := by decide

/-- VF changes as a flag (both values), and as a destination. -/
theorem witness_VFChangesOnlyAsFlagOrDestination :
    after (·.reg 0xF#4) (exec (.add 0x0#4 0x0#4) (withRegs [(0x0#4, 0x80#8)])) = some 0x01#8 ∧
    after (·.reg 0xF#4) (exec (.add 0x0#4 0x0#4) (withRegs [(0xF#4, 0x01#8)])) = some 0x00#8 ∧
    after (·.reg 0xF#4) (exec (.ldByte 0xF#4 0x07#8) State.reset) = some 0x07#8 := by decide

/-- 1000 at address 0x000, and 1FFF at the top address 0xFFF (its second byte at 0x000). -/
theorem witness_JpSetsPCAndSelfJumpLoops :
    ((atPC 0x000#16 0x1000#16).env.turns = [] ∧ (atPC 0x000#16 0x1000#16).pc.toNat = (0x000#12).toNat ∧
      decode (atPC 0x000#16 0x1000#16).fetch = .instr (.jp 0x000#12)) ∧
    ((atPC 0xFFF#16 0x1FFF#16).env.turns = [] ∧ (atPC 0xFFF#16 0x1FFF#16).pc.toNat = (0xFFF#12).toNat ∧
      decode (atPC 0xFFF#16 0x1FFF#16).fetch = .instr (.jp 0xFFF#12)) := by decide

/-- One entry below the bound, and the unbounded stack. -/
theorem witness_CallPushesPCAndJumps :
    (State.reset.setStack (List.replicate 15 0#16)).env.params.stackDepth ≠ some 15 ∧
    (State.construct { stackDepth := none, retOnEmpty := .inert }).env.params.stackDepth ≠ some 0 := by decide

theorem witness_CallOnFullStackOverflows : ∃ s : State, s.env.params.stackDepth = some s.stack.length :=
  ⟨State.reset.setStack (List.replicate 16 0x202#16), rfl⟩

/-- One state for each of the three clauses. -/
theorem witness_RetPopsAndMasksOrActsAsConfigured :
    (State.reset.setStack [0xFFFF#16]).stack = 0xFFFF#16 :: [] ∧
    (State.reset.stack = [] ∧ State.reset.env.params.retOnEmpty = .inert) ∧
    ((State.construct { stackDepth := some 16, retOnEmpty := .fault }).stack = [] ∧
      (State.construct { stackDepth := some 16, retOnEmpty := .fault }).env.params.retOnEmpty = .fault) := by decide

/-- P = 0x0FFF, the last that comes back whole, with 15 entries on the stack. -/
theorem witness_CallThenRetRestoresTheState :
    ∃ s : State, (∀ d, s.env.params.stackDepth = some d → s.stack.length < d) ∧ s.pc.toNat ≤ 0x0FFF ∧
      s.stack.length = 15 :=
  ⟨(State.reset.setPC 0x0FFF#16).setStack (List.replicate 15 0#16),
    fun d h => by cases h; decide, by decide, rfl⟩

/-- An instruction that ends Done and one that does not. -/
theorem witness_LdiLoadsIndexThatNothingReads :
    (∃ t, exec (.ldi 0xFFF#12) State.reset = .next t) ∧ exec .cls State.reset = .fault (.unimplemented .cls) :=
  ⟨⟨_, rfl⟩, rfl⟩

theorem witness_RndMasksExactlyOneDraw : (State.reset.answerRnd 0xA7#8).env.rndScript = 0xA7#8 :: [] := by decide

theorem witness_TicksLowerBothTimersToZero : ∃ s : State,
    s.env.turns = List.replicate 3 (.host .timerTick) ++ [.driver] ∧ s.DT = 0x02#8 :=
  ⟨(State.reset.setDT 0x02#8).setTurns (List.replicate 3 (.host .timerTick) ++ [.driver]), rfl, rfl⟩

theorem witness_DelayReadBackIsLoweredByTicks : ∃ s : State,
    s.env.turns = List.replicate 300 (.host .timerTick) ++ [] ∧ s.reg 0x0#4 = 0xFF#8 :=
  ⟨(withRegs [(0x0#4, 0xFF#8)]).setTurns (List.replicate 300 (.host .timerTick) ++ []), rfl, rfl⟩

/-- The two values next to each excluded one. -/
theorem witness_SysAndClsSignalUnimplemented :
    (0x0DF#12 ≠ 0x0E0#12 ∧ 0x0DF#12 ≠ 0x0EE#12) ∧ (0x0EF#12 ≠ 0x0E0#12 ∧ 0x0EF#12 ≠ 0x0EE#12) := by decide

/-- One stop for each of the six causes. -/
theorem witness_EveryStopHasItsListedCause :
    step (atPC 0x200#16 0xFFFF#16) = .fault (.decodeFailure 0xFFFF#16) ∧
    step State.reset = .fault (.unimplemented (.sys 0x000#12)) ∧
    step ((atPC 0x200#16 0x2200#16).setStack (List.replicate 16 0x202#16)) = .fault (.stackOverflow 0x202#16) ∧
    step (((State.construct { stackDepth := some 16, retOnEmpty := .fault }).placeWord 0x00EE#16)) =
      .fault .stackUnderflow ∧
    step (State.reset.setTurns [.host (.get .reg 16)]) = .fault (.indexOutOfRange .reg 16) ∧
    step ((State.reset.setStack (List.replicate 16 0#16)).setTurns [.host (.push 0x300#16)]) =
      .fault (.stackOverflow 0x300#16) := ⟨rfl, rfl, rfl, rfl, rfl, rfl⟩

/-- An instruction of each kind of write: none, a register, pc and stack, I, DT, the draws. -/
theorem witness_InstructionsWriteOnlyWhatTheMatrixLists :
    [Instr.ret, .shr 0xF#4, .call 0x300#12, .ldi 0x123#12, .ldDelayVx 0x0#4].all
      (fun i => (after (fun _ => true) (exec i State.reset)).getD false) = true ∧
    ∃ t, exec (.rnd 0x0#4 0xFF#8) State.reset = .next t := ⟨by decide, _, rfl⟩

theorem witness_InstructionsReadNeitherMemoryNorSoundTimer :
    (∃ t, exec (.se 0x0#4 0x0#4) State.reset = .next t) ∧
    exec (.sys 0x001#12) State.reset = .fault (.unimplemented (.sys 0x001#12)) := ⟨⟨_, rfl⟩, rfl⟩

/-- A full stack that a Ret lowers, and a host write at the last address. -/
theorem witness_EveryStepKeepsMemoryAndStackInvariant :
    (∃ s t : State, s.Inv ∧ s.stack.length = 16 ∧ step s = .next t ∧ s.env.turns = []) ∧
    (∃ s t : State, s.Inv ∧ step s = .next t ∧ s.env.turns = [.host (.set .mem 4095 0x01#8)]) :=
  ⟨⟨(atPC 0x200#16 0x00EE#16).setStack (List.replicate 16 0x202#16), _, ⟨by decide, by decide⟩, rfl, rfl, rfl⟩,
    ⟨State.reset.setTurns [.host (.set .mem 4095 0x01#8)], _, ⟨by decide, by decide⟩, rfl, rfl⟩⟩

/-- Ldi of the greatest address, from the greatest I. -/
theorem witness_InstructionStepsKeepIndexTwelveBits :
    ∃ s t : State, s.driverMoves ∧ s.indexIsAddress ∧ s.I = 0x0FFF#16 ∧ step s = .next t :=
  ⟨(atPC 0x200#16 0xAFFF#16).setI 0x0FFF#16, _, driverMoves_of_no_turns _ rfl,
    show (0x0FFF#16).toNat < 4096 by decide, rfl, rfl⟩

theorem witness_InstructionStepsWriteNeitherMemoryNorSoundTimer :
    ∃ s t : State, s.driverMoves ∧ step s = .next t ∧ s.ST = 0x05#8 :=
  ⟨(atPC 0x200#16 0x602A#16).setST 0x05#8, _, driverMoves_of_no_turns _ rfl, rfl, rfl⟩

theorem witness_StepsKeepParametersAndSpendOneTurn :
    ∃ s t : State, s.env.turns = [.host .pop, .driver] ∧ step s = .next t :=
  ⟨State.reset.setTurns [.host .pop, .driver], _, rfl, rfl⟩

/-- Each clause at its first bad index; and a driver's turn. -/
theorem witness_BadIndexStopsHostCallsOnly :
    (4096 ≤ 4096 ∧ (State.reset.setTurns [.host (.set .mem 4096 0x01#8)]).env.turns = [.host (.set .mem 4096 0x01#8)] ∧
      (State.reset.setTurns [.host (.get .mem 4096)]).env.turns = [.host (.get .mem 4096)]) ∧
    (16 ≤ 16 ∧ (State.reset.setTurns [.host (.set .reg 16 0x01#8)]).env.turns = [.host (.set .reg 16 0x01#8)] ∧
      (State.reset.setTurns [.host (.get .reg 16)]).env.turns = [.host (.get .reg 16)]) ∧
    State.reset.driverMoves :=
  ⟨by decide, by decide, driverMoves_of_no_turns _ rfl⟩

/-- Each space at its last index. -/
theorem witness_HostSetReadsBackAndTouchesNothingElse :
    (15 < 16 ∧ (State.reset.setTurns [.host (.set .reg 15 0x01#8)]).env.turns = [.host (.set .reg 15 0x01#8)]) ∧
    (4095 < 4096 ∧ (State.reset.setTurns [.host (.set .mem 4095 0x01#8)]).env.turns =
      [.host (.set .mem 4095 0x01#8)]) := by decide

/-- Every path's hypothesis is met by a state with that call next; Push on both sides of the bound. -/
theorem witness_HostPathsActOnTheirOwnState (ts : List Turn) (c : HostCall) :
    (State.reset.setTurns (.host c :: ts)).env.turns = .host c :: ts ∧
    (State.reset.setStack (List.replicate 15 0#16)).env.params.stackDepth ≠ some 15 ∧
    (State.reset.setStack (List.replicate 16 0#16)).env.params.stackDepth = some 16 ∧
    ((Space.reg = .reg ∧ 15 < 16 ∨ Space.reg = .mem ∧ 15 < 4096) ∧
      (Space.mem = .reg ∧ 4095 < 16 ∨ Space.mem = .mem ∧ 4095 < 4096)) ∧
    (State.reset.setStack [0x202#16]).stack = 0x202#16 :: [] ∧ State.reset.stack = [] :=
  ⟨rfl, by decide, by decide, by decide, rfl, rfl⟩

/-- The longest program that fits. -/
theorem witness_BootLoadsProgramAndSetsPC : (List.replicate 3584 (0x01#8 : Byte)).length ≤ 4096 - 0x200 := by
  rw [List.length_replicate]

end Sys2Proof.Tests
end

section
/-! The bits of a word its instruction fixes (30_encoding.md R76). The round trip from a word to its instruction
and back keeps every bit but those the decoder ignores, so two words of one instruction agree on the rest. -/

namespace Sys2Proof

open Laws.RowPattern (append_and nibble_keep byte_keep mask_drop)

/-- 30 R76: the bits of a word that its instruction fixes: every bit, but for bits 7 to 4 of Shr and Shl. -/
def Instr.fixedBits : Instr → Word
  | .shr _ | .shl _ => 0xFF0F#16
  | _ => BitVec.allOnes 16

theorem Instr.fixedBits_of_not_shift {i : Instr} (hr : ∀ x, i ≠ .shr x) (hl : ∀ x, i ≠ .shl x) :
    i.fixedBits = BitVec.allOnes 16 := by
  unfold Instr.fixedBits
  split
  · exact absurd rfl (hr _)
  · exact absurd rfl (hl _)
  · rfl

theorem Instr.fixedBits_of_shift {i : Instr} (h : (∃ x, i = .shr x) ∨ ∃ x, i = .shl x) :
    i.fixedBits = 0xFF0F#16 := by
  obtain ⟨x, rfl⟩ | ⟨x, rfl⟩ := h <;> rfl

/-! ### A word of known leading fields, from its remaining fields -/

section Words

variable {op : Word} {i : Instr} {o n : BitVec 4} {kk : Byte}

theorem formatNNN_of_fieldO (ho : fieldO op = o) : formatNNN o (fieldNNN op) = op :=
  ho ▸ formatNNN_fields op

theorem formatXKK_of_fieldO (ho : fieldO op = o) : formatXKK o (fieldX op) (fieldKK op) = op :=
  ho ▸ formatXKK_fields op

theorem formatXKK_of_fieldO_fieldKK (ho : fieldO op = o) (hk : fieldKK op = kk) :
    formatXKK o (fieldX op) kk = op :=
  hk ▸ formatXKK_of_fieldO ho

theorem formatXYN_of_fieldO_fieldN (ho : fieldO op = o) (hn : fieldN op = n) :
    formatXYN o (fieldX op) (fieldY op) n = op :=
  ho ▸ hn ▸ formatXYN_fields op

/-- The mask of Shr and Shl clears the `y` bits and no other. -/
theorem formatXYN_and_FF0F (o : BitVec 4) (x y : RegIdx) (n : BitVec 4) :
    formatXYN o x y n &&& 0xFF0F#16 = formatXYN o x 0x0#4 n := by
  have h := append_and (o ++ x) 0xFF (y ++ n) ((0 : BitVec 4) ++ (0xF : BitVec 4))
  rw [byte_keep, append_and y, mask_drop, nibble_keep] at h
  exact h

theorem formatXN_of_fieldO_fieldN (ho : fieldO op = o) (hn : fieldN op = n) :
    formatXYN o (fieldX op) 0x0#4 n = op &&& 0xFF0F#16 := by
  rw [← formatXYN_and_FF0F o (fieldX op) (fieldY op) n, formatXYN_of_fieldO_fieldN ho hn]

/-! ### The word of a decoded instruction, group by group (R74) -/

theorem encode_of_decodeGroup0 (ho : fieldO op = 0x0#4) (h : decodeGroup0 op = .instr i) :
    encode i = op &&& i.fixedBits := by
  unfold decodeGroup0 at h
  split at h
  next hop => cases h; exact hop ▸ rfl
  next =>
    split at h
    next hop => cases h; exact hop ▸ rfl
    next => cases h; exact (formatNNN_of_fieldO ho).trans BitVec.and_allOnes.symm

theorem encode_of_decodeGroup8 (ho : fieldO op = 0x8#4) (h : decodeGroup8 op = .instr i) :
    encode i = op &&& i.fixedBits := by
  unfold decodeGroup8 at h
  dsimp only at h
  split at h
  case h_7 hn | h_9 hn => cases h; exact formatXN_of_fieldO_fieldN ho hn
  case h_10 => cases h
  all_goals
    next hn => cases h; exact (formatXYN_of_fieldO_fieldN ho hn).trans BitVec.and_allOnes.symm

theorem encode_of_decodeGroupF (ho : fieldO op = 0xF#4) (h : decodeGroupF op = .instr i) :
    encode i = op &&& i.fixedBits := by
  unfold decodeGroupF at h
  split at h
  next hk => cases h; exact (formatXKK_of_fieldO_fieldKK ho hk).trans BitVec.and_allOnes.symm
  next =>
    split at h
    next hk => cases h; exact (formatXKK_of_fieldO_fieldKK ho hk).trans BitVec.and_allOnes.symm
    next => cases h

/-- Encoding what a word decodes to gives the word back on every bit its instruction fixes. -/
theorem encode_of_decode (h : decode op = .instr i) : encode i = op &&& i.fixedBits := by
  unfold decode at h
  split at h
  case h_1 ho => exact encode_of_decodeGroup0 ho h
  case h_9 ho => exact encode_of_decodeGroup8 ho h
  case h_14 | h_15 => cases h
  case h_16 =>
    have ho : fieldO op = 0xF#4 := by simp only [imp_false] at *; bv_omega
    exact encode_of_decodeGroupF ho h
  case h_2 ho | h_3 ho | h_11 ho | h_12 ho =>
    cases h; exact (formatNNN_of_fieldO ho).trans BitVec.and_allOnes.symm
  case h_4 ho | h_5 ho | h_7 ho | h_8 ho | h_13 ho =>
    cases h; exact (formatXKK_of_fieldO ho).trans BitVec.and_allOnes.symm
  case h_6 ho | h_10 ho =>
    split at h
    next hn => cases h; exact (formatXYN_of_fieldO_fieldN ho hn).trans BitVec.and_allOnes.symm
    next => cases h

/-- Words of one instruction agree on the bits it fixes: both are its word there. -/
theorem fixedBits_eq_of_decode_eq {op' : Word} (h : decode op = .instr i) (h' : decode op' = .instr i) :
    op &&& i.fixedBits = op' &&& i.fixedBits :=
  (encode_of_decode h).symm.trans (encode_of_decode h')

end Words

/-! ### The shifts decode from any `y` bits (R74) -/

theorem decode_word_of_shr (x y : RegIdx) : decode (formatXYN 0x8#4 x y 0x6#4) = .instr (.shr x) := by
  simp [decode, decodeGroup8]

theorem decode_word_of_shl (x y : RegIdx) : decode (formatXYN 0x8#4 x y 0xE#4) = .instr (.shl x) := by
  simp [decode, decodeGroup8]

/-- Settles O4: two words of one instruction agree on the bits it fixes, which are all but bits 7 to 4 for a shift
and all of them for any other instruction. -/
theorem shiftYBitsAreTheOnlyIgnoredBits : Obligations.ShiftYBitsAreTheOnlyIgnoredBits := by
  refine ⟨decode_word_of_shr, decode_word_of_shl, fun op op' i h h' hr hl => ?_, fun op op' i h h' hs => ?_⟩
  · have hfixed := fixedBits_eq_of_decode_eq h h'
    rwa [Instr.fixedBits_of_not_shift hr hl, BitVec.and_allOnes, BitVec.and_allOnes] at hfixed
  · have hfixed := fixedBits_eq_of_decode_eq h h'
    rwa [Instr.fixedBits_of_shift hs] at hfixed

end Sys2Proof
end

section
/-! Register loads, sums and bitwise instructions (40_alu.md R103 to R109): what each writes, read from the state it
starts in, and that nothing but its destination, and VF for Add, differs after it. -/

namespace Sys2Proof.Machine

/-! ### Frames of the register writes -/

section Frames

variable (s : State) (x : RegIdx)

/-- Registers are independent: a write to one leaves the whole rest of the state. -/
theorem onlyRegsChange_setReg (v : Byte) : OnlyRegsChange [x] s (s.setReg x v) :=
  ⟨fun j hj => s.reg_setReg_other x j v (mt List.mem_singleton.2 hj), rfl, rfl, rfl, rfl, rfl, fun _ => rfl, rfl⟩

/-- Changes one after the other stay within the registers of both. -/
theorem OnlyRegsChange.trans {ws vs : List RegIdx} {s t u : State} (hst : OnlyRegsChange ws s t)
    (htu : OnlyRegsChange vs t u) : OnlyRegsChange (ws ++ vs) s u := by
  obtain ⟨hreg, hpc, hI, hDT, hST, hstack, hmem, henv⟩ := hst
  obtain ⟨hreg', hpc', hI', hDT', hST', hstack', hmem', henv'⟩ := htu
  refine ⟨fun j hj => ?_, hpc'.trans hpc, hI'.trans hI, hDT'.trans hDT, hST'.trans hST, hstack'.trans hstack,
    fun a => (hmem' a).trans (hmem a), henv'.trans henv⟩
  rw [List.mem_append, not_or] at hj
  obtain ⟨hws, hvs⟩ := hj
  exact (hreg' j hvs).trans (hreg j hws)

/-- R101: a result and its flag reach V[x] and VF only. -/
theorem onlyRegsChange_setResultThenFlag (result flag : Byte) :
    OnlyRegsChange [x, regF] s (s.setResultThenFlag x result flag) :=
  (onlyRegsChange_setReg s x result).trans (onlyRegsChange_setReg (s.setReg x result) regF flag)

/-- R101: VF is written last, so it holds the flag for every `x`. -/
theorem State.reg_regF_setResultThenFlag (result flag : Byte) :
    (s.setResultThenFlag x result flag).reg regF = flag := by
  rw [s.reg_setResultThenFlag, if_pos rfl]

/-- R101: V[x] keeps the result where the flag does not overwrite it. -/
theorem State.reg_setResultThenFlag_same (result flag : Byte) (hx : x ≠ regF) :
    (s.setResultThenFlag x result flag).reg x = result := by
  rw [s.reg_setResultThenFlag, if_neg hx, if_pos rfl]

end Frames

/-! ### The state after each instruction -/

section Exec

variable (x y : RegIdx) (kk : Byte) (s : State)

theorem exec_ldByte : exec (.ldByte x kk) s = .next (s.setReg x kk) := rfl

theorem exec_addByte : exec (.addByte x kk) s = .next (s.setReg x (addMod (s.reg x) kk)) := rfl

theorem exec_ld : exec (.ld x y) s = .next (s.setReg x (s.reg y)) := rfl

theorem exec_or : exec (.or x y) s = .next (s.setReg x (s.reg x ||| s.reg y)) := rfl

theorem exec_and : exec (.and x y) s = .next (s.setReg x (s.reg x &&& s.reg y)) := rfl

theorem exec_xor : exec (.xor x y) s = .next (s.setReg x (s.reg x ^^^ s.reg y)) := rfl

theorem exec_add : exec (.add x y) s =
    .next (s.setResultThenFlag x (addMod (s.reg x) (s.reg y)) (carryFlag (s.reg x) (s.reg y))) := rfl

end Exec

end Sys2Proof.Machine

namespace Sys2Proof

open Machine

/-! ### The words (30_encoding.md R74) -/

section Words

variable (x y : RegIdx) (kk : Byte)

theorem decode_word_of_ldByte : decode (formatXKK 0x6#4 x kk) = .instr (.ldByte x kk) := by
  simp [decode]

theorem decode_word_of_addByte : decode (formatXKK 0x7#4 x kk) = .instr (.addByte x kk) := by
  simp [decode]

/-- First field 8 selects group 8, whatever the other fields. -/
theorem decode_formatXYN_group8 (n : BitVec 4) :
    decode (formatXYN 0x8#4 x y n) = decodeGroup8 (formatXYN 0x8#4 x y n) := by
  simp [decode]

theorem decode_word_of_ld : decode (formatXYN 0x8#4 x y 0x0#4) = .instr (.ld x y) := by
  simp [decode_formatXYN_group8, decodeGroup8]

theorem decode_word_of_or : decode (formatXYN 0x8#4 x y 0x1#4) = .instr (.or x y) := by
  simp [decode_formatXYN_group8, decodeGroup8]

theorem decode_word_of_and : decode (formatXYN 0x8#4 x y 0x2#4) = .instr (.and x y) := by
  simp [decode_formatXYN_group8, decodeGroup8]

theorem decode_word_of_xor : decode (formatXYN 0x8#4 x y 0x3#4) = .instr (.xor x y) := by
  simp [decode_formatXYN_group8, decodeGroup8]

theorem decode_word_of_add : decode (formatXYN 0x8#4 x y 0x4#4) = .instr (.add x y) := by
  simp [decode_formatXYN_group8, decodeGroup8]

end Words

/-! ### The obligations -/

/-- Settles O12: the one write of AddByte is the sum mod 256 to V[x]. -/
theorem addByteWrapsWithoutFlag : Obligations.AddByteWrapsWithoutFlag := by
  refine ⟨decode_word_of_addByte, fun x kk s => ⟨_, exec_addByte x kk s, ?_, onlyRegsChange_setReg s x _⟩⟩
  rw [s.reg_setReg_same, addMod_toNat]

/-- Settles O14: each of the three writes V[x] once, and the bits of what it writes are the operands' bits combined. -/
theorem bitwiseInstructionsWriteOnlyVx : Obligations.BitwiseInstructionsWriteOnlyVx := by
  refine ⟨fun x y => ⟨decode_word_of_or x y, decode_word_of_and x y, decode_word_of_xor x y⟩, fun x y s =>
    ⟨⟨_, exec_or x y s, onlyRegsChange_setReg s x _, fun b => ?_⟩,
      ⟨_, exec_and x y s, onlyRegsChange_setReg s x _, fun b => ?_⟩,
      ⟨_, exec_xor x y s, onlyRegsChange_setReg s x _, fun b => ?_⟩⟩⟩
  · rw [s.reg_setReg_same, BitVec.getLsbD_or]
  · rw [s.reg_setReg_same, BitVec.getLsbD_and]
  · rw [s.reg_setReg_same, BitVec.getLsbD_xor]

/-- Settles O15: sum and carry are both of the operands before any write, and the carry goes to VF last. -/
theorem addWritesSumThenCarry : Obligations.AddWritesSumThenCarry := by
  refine ⟨decode_word_of_add, fun x y s =>
    ⟨_, exec_add x y s, fun hx => ?sum, ?carry, onlyRegsChange_setResultThenFlag s x _ _⟩⟩
  case sum => rw [s.reg_setResultThenFlag_same x _ _ hx, addMod_toNat]
  case carry => exact (congrArg BitVec.toNat (s.reg_regF_setResultThenFlag x _ _)).trans (carryFlag_toNat _ _)

/-- Settles O11: the one write of LdByte is kk to V[x]. -/
theorem ldByteLoadsImmediate : Obligations.LdByteLoadsImmediate :=
  ⟨decode_word_of_ldByte, fun x kk s =>
    ⟨_, exec_ldByte x kk s, s.reg_setReg_same x kk, onlyRegsChange_setReg s x kk⟩⟩

/-- Settles O13: the one write of Ld is the old V[y] to V[x]. -/
theorem ldCopiesRegister : Obligations.LdCopiesRegister :=
  ⟨decode_word_of_ld, fun x y s =>
    ⟨_, exec_ld x y s, s.reg_setReg_same x (s.reg y), onlyRegsChange_setReg s x (s.reg y)⟩⟩

end Sys2Proof
end

section
/-! The index register (42_index_timer_rnd.md R170): what Ldi writes to it, and that no instruction reads it, as
every instruction's outcome from a state with another I is its outcome with that I, or with the one Ldi loads. -/

namespace Sys2Proof.Machine

/-! ### Another value in I, past each state operation -/

section Operations

variable (s : State) (v : Word)

theorem State.stackFull_setI : (s.setI v).stackFull = s.stackFull := rfl

theorem State.setPC_setI (pc : Word) : (s.setI v).setPC pc = (s.setPC pc).setI v := rfl

theorem State.skipIf_setI (c : Bool) : (s.setI v).skipIf c = (s.skipIf c).setI v := by
  rw [State.skipIf_eq, State.skipIf_eq, State.setPC_setI, State.setI_pc]

end Operations

/-! ### Another value in I, past an instruction -/

/-- The outcome with `v` in I, where it gives a state. -/
def withIndex (v : Word) : Result → Result
  | .next t => .next (t.setI v)
  | .fault f => .fault f
  | .refused r => .refused r

@[simp] theorem withIndex_next (v : Word) (t : State) : withIndex v (.next t) = .next (t.setI v) := rfl

@[simp] theorem withIndex_fault (v : Word) (f : Fault) : withIndex v (.fault f) = .fault f := rfl

/-- What I holds after an instruction that finds `v` there: R170's Ldi alone writes it. -/
def indexAfter : Instr → Word → Word
  | .ldi nnn, _ => operandAddr nnn
  | _, v => v

section Exec

variable (s : State) (v : Word)

theorem exec_ldi (nnn : Addr) : exec (.ldi nnn) s = .next (s.setI (operandAddr nnn)) := rfl

/-- 41 R148: whether Call overflows, and where it goes, is up to pc and stack. -/
theorem execCall_setI (nnn : Addr) : execCall nnn (s.setI v) = withIndex v (execCall nnn s) := by
  unfold execCall
  rw [State.stackFull_setI]
  split
  · rfl
  · rfl

/-- 41 R149: where Ret goes is up to the stack, and on an empty one to RET_ON_EMPTY. -/
theorem execRet_setI : execRet (s.setI v) = withIndex v (execRet s) := by
  unfold execRet
  rw [State.setI_stack, State.setI_env]
  split
  · split
    · rfl
    · rfl
  · rfl

/-- No instruction reads I: from a state with another value there it ends the same way, the state after it the same
but for I, which keeps that value or is what Ldi loads. -/
theorem exec_setI (i : Instr) : exec i (s.setI v) = withIndex (indexAfter i v) (exec i s) := by
  cases i with
  | se x y | sne x y | seByte x kk | sneByte x kk => exact congrArg done (s.skipIf_setI v _)
  | call nnn => exact execCall_setI s v nnn
  | ret => exact execRet_setI s v
  | _ => rfl -- one path, whose writes to other fields commute with the one to I

end Exec

end Sys2Proof.Machine

namespace Sys2Proof

open Machine

theorem decode_word_of_ldi (nnn : Addr) : decode (formatNNN 0xA#4 nnn) = .instr (.ldi nnn) := by
  simp [decode]

/-- A zero-extended address is an address (42 R170, 10 R25). -/
theorem indexIsAddress_setI_operandAddr (s : State) (nnn : Addr) : (s.setI (operandAddr nnn)).indexIsAddress := by
  rw [State.indexIsAddress, State.setI_I, operandAddr_toNat]
  exact nnn.isLt

/-- Settles O26: Ldi's one write is nnn, zero-extended, to I; and `exec_setI` gives the outcome of every instruction
from a state with another I. -/
theorem ldiLoadsIndexThatNothingReads : Obligations.LdiLoadsIndexThatNothingReads := by
  refine ⟨decode_word_of_ldi, fun nnn s => ⟨_, exec_ldi s nnn, operandAddr_toNat nnn,
    indexIsAddress_setI_operandAddr s nnn, fun _ => rfl, rfl, rfl, rfl, rfl, fun _ => rfl, rfl⟩,
    fun i s v => ⟨fun t ht => ⟨t.setI (indexAfter i v), ?next, rfl⟩, fun f hf => ?fault⟩⟩
  case next => rw [exec_setI, ht, withIndex_next]
  case fault => rw [exec_setI, hf, withIndex_fault]

end Sys2Proof
end

section
/-! The decoder and the encoder together (30_encoding.md R71 to R77): the word of every instruction decodes to it, a
word that decodes is its instruction's word on the bits that are not ignored, and the words that decode to none. -/

namespace Sys2Proof

/-! ### Group 0 (R75) -/

/-- The operand is part of the word: two words of format NNN with one leading nibble are equal only when it is. -/
theorem formatNNN_inj {o : BitVec 4} {a b : Addr} : formatNNN o a = formatNNN o b ↔ a = b :=
  ⟨fun h => by simpa using congrArg fieldNNN h, fun h => h ▸ rfl⟩

/-- R75: the exact words 00E0 and 00EE come first, every other 0nnn is Sys. -/
theorem decode_word_of_group0 (nnn : Addr) : decode (formatNNN 0x0#4 nnn) =
    .instr (if nnn = 0x0E0#12 then .cls else if nnn = 0x0EE#12 then .ret else .sys nnn) := by
  have hcls : formatNNN 0x0#4 nnn = 0x00E0#16 ↔ nnn = 0x0E0#12 := formatNNN_inj (b := 0x0E0#12)
  have hret : formatNNN 0x0#4 nnn = 0x00EE#16 ↔ nnn = 0x0EE#12 := formatNNN_inj (b := 0x0EE#12)
  simp only [decode, fieldO_formatNNN, decodeGroup0, hcls, hret, fieldNNN_formatNNN]
  split
  · rfl
  · split <;> rfl

theorem decode_word_of_sys {nnn : Addr} (hcls : nnn ≠ 0x0E0#12) (hret : nnn ≠ 0x0EE#12) :
    decode (formatNNN 0x0#4 nnn) = .instr (.sys nnn) := by
  rw [decode_word_of_group0, if_neg hcls, if_neg hret]

theorem decode_word_of_cls : decode 0x00E0#16 = .instr .cls := by decide

theorem decode_word_of_ret : decode 0x00EE#16 = .instr .ret := by decide

/-! ### The word of every other instruction (R74) -/

section Words

variable (x y : RegIdx) (kk : Byte) (nnn : Addr)

theorem decode_word_of_jp : decode (formatNNN 0x1#4 nnn) = .instr (.jp nnn) := by
  simp [decode]

theorem decode_word_of_call : decode (formatNNN 0x2#4 nnn) = .instr (.call nnn) := by
  simp [decode]

theorem decode_word_of_jpV0 : decode (formatNNN 0xB#4 nnn) = .instr (.jpV0 nnn) := by
  simp [decode]

theorem decode_word_of_seByte : decode (formatXKK 0x3#4 x kk) = .instr (.seByte x kk) := by
  simp [decode]

theorem decode_word_of_sneByte : decode (formatXKK 0x4#4 x kk) = .instr (.sneByte x kk) := by
  simp [decode]

theorem decode_word_of_rnd : decode (formatXKK 0xC#4 x kk) = .instr (.rnd x kk) := by
  simp [decode]

theorem decode_word_of_se : decode (formatXYN 0x5#4 x y 0x0#4) = .instr (.se x y) := by
  simp [decode]

theorem decode_word_of_sne : decode (formatXYN 0x9#4 x y 0x0#4) = .instr (.sne x y) := by
  simp [decode]

theorem decode_word_of_sub : decode (formatXYN 0x8#4 x y 0x5#4) = .instr (.sub x y) := by
  simp [decode_formatXYN_group8, decodeGroup8]

theorem decode_word_of_subn : decode (formatXYN 0x8#4 x y 0x7#4) = .instr (.subn x y) := by
  simp [decode_formatXYN_group8, decodeGroup8]

theorem decode_word_of_ldVxDelay : decode (formatXKK 0xF#4 x 0x07#8) = .instr (.ldVxDelay x) := by
  simp [decode, decodeGroupF]

theorem decode_word_of_ldDelayVx : decode (formatXKK 0xF#4 x 0x15#8) = .instr (.ldDelayVx x) := by
  simp [decode, decodeGroupF]

end Words

theorem Instr.wellFormed_sys_iff (nnn : Addr) :
    (Instr.sys nnn).wellFormed = true ↔ nnn ≠ 0x0E0#12 ∧ nnn ≠ 0x0EE#12 := by
  simp [Instr.wellFormed]

/-- Settles O2: one word lemma for every constructor; only Sys needs that it is well formed. -/
theorem decodeOfEncodeGivesInstructionBack : Obligations.DecodeOfEncodeGivesInstructionBack := by
  intro i hi
  cases i with
  | ldByte x kk => exact decode_word_of_ldByte x kk
  | addByte x kk => exact decode_word_of_addByte x kk
  | ld x y => exact decode_word_of_ld x y
  | or x y => exact decode_word_of_or x y
  | and x y => exact decode_word_of_and x y
  | xor x y => exact decode_word_of_xor x y
  | add x y => exact decode_word_of_add x y
  | sub x y => exact decode_word_of_sub x y
  | shr x => exact decode_word_of_shr x 0x0#4
  | subn x y => exact decode_word_of_subn x y
  | shl x => exact decode_word_of_shl x 0x0#4
  | rnd x kk => exact decode_word_of_rnd x kk
  | jp nnn => exact decode_word_of_jp nnn
  | call nnn => exact decode_word_of_call nnn
  | jpV0 nnn => exact decode_word_of_jpV0 nnn
  | ret => exact decode_word_of_ret
  | seByte x kk => exact decode_word_of_seByte x kk
  | sneByte x kk => exact decode_word_of_sneByte x kk
  | se x y => exact decode_word_of_se x y
  | sne x y => exact decode_word_of_sne x y
  | ldi nnn => exact decode_word_of_ldi nnn
  | ldVxDelay x => exact decode_word_of_ldVxDelay x
  | ldDelayVx x => exact decode_word_of_ldDelayVx x
  | sys nnn =>
    obtain ⟨hcls, hret⟩ := (Instr.wellFormed_sys_iff nnn).1 hi
    exact decode_word_of_sys hcls hret
  | cls => exact decode_word_of_cls

/-! ### From a word to its instruction and back (R76) -/

section Words

variable {op : Word} {i : Instr}

/-- What the decoder gives is well formed: a Sys of 0E0 or 0EE would have the word of Cls or Ret (R75). -/
theorem wellFormed_of_decode (h : decode op = .instr i) : i.wellFormed = true := by
  cases i with
  | sys nnn =>
    have hop : formatNNN 0x0#4 nnn = op := (encode_of_decode h).trans BitVec.and_allOnes
    rw [← hop, decode_word_of_group0] at h
    refine (Instr.wellFormed_sys_iff nnn).2 ⟨fun hcls => ?_, fun hret => ?_⟩
    · simp [hcls] at h
    · simp [hret] at h
  | _ => rfl

/-- The mask of the shifts keeps the bits of field `x`. -/
theorem fieldX_and_FF0F (op : Word) : fieldX (op &&& 0xFF0F#16) = fieldX op := by
  rw [← formatXN_of_fieldO_fieldN (op := op) rfl rfl, fieldX_formatXYN]

end Words

/-- Settles O3: the decoder's output is well formed, and its word agrees with the word decoded on every bit it fixes,
which for a shift leaves out bits 7 to 4 but holds field `x`. -/
theorem decodedWordReencodesUpToIgnoredBits : Obligations.DecodedWordReencodesUpToIgnoredBits := by
  intro op i h
  have henc := encode_of_decode h
  refine ⟨wellFormed_of_decode h, ?_⟩
  by_cases hs : (∃ x, i = .shr x) ∨ ∃ x, i = .shl x
  case pos =>
    rw [Instr.fixedBits_of_shift hs] at henc
    have hx := (congrArg fieldX henc).trans (fieldX_and_FF0F op)
    obtain ⟨x, rfl⟩ | ⟨x, rfl⟩ := hs
    · exact .inr ⟨.inl (congrArg Instr.shr (by simpa [encode] using hx)), henc⟩
    · exact .inr ⟨.inr (congrArg Instr.shl (by simpa [encode] using hx)), henc⟩
  case neg =>
    rw [not_or, not_exists, not_exists] at hs
    obtain ⟨hr, hl⟩ := hs
    rw [Instr.fixedBits_of_not_shift hr hl, BitVec.and_allOnes] at henc
    exact .inl henc

/-! ### The words outside the table (R77) -/

section Words

variable (op w : Word)

theorem decodeGroup0_ne_unknown : decodeGroup0 op ≠ .unknown w := by
  unfold decodeGroup0
  split
  · simp
  · split <;> simp

theorem decodeGroup8_eq_unknown_iff : decodeGroup8 op = .unknown w ↔
    w = op ∧ fieldN op ∈ [0x8#4, 0x9#4, 0xA#4, 0xB#4, 0xC#4, 0xD#4, 0xF#4] := by
  unfold decodeGroup8
  dsimp only
  split
  case h_10 =>
    have hn : fieldN op ∈ [0x8#4, 0x9#4, 0xA#4, 0xB#4, 0xC#4, 0xD#4, 0xF#4] := by
      simp only [imp_false, List.mem_cons, List.not_mem_nil, or_false] at *
      bv_omega
    simp only [DecodeResult.unknown.injEq, hn, and_true, eq_comm]
  all_goals next hn => simp [hn]

theorem decodeGroupF_eq_unknown_iff : decodeGroupF op = .unknown w ↔
    w = op ∧ fieldKK op ≠ 0x07#8 ∧ fieldKK op ≠ 0x15#8 := by
  unfold decodeGroupF
  split
  next h => simp [h]
  next h =>
    split
    next h' => simp [h']
    next h' => simp [h, h', eq_comm]

end Words

/-- Settles O5: group by group; a group's words are Unknown by its own test, groups D and E whole. -/
theorem unknownWordsAreExactlyTheListedOnes : Obligations.UnknownWordsAreExactlyTheListedOnes := by
  intro op w
  unfold decode
  split
  case h_1 ho => simp [ho, decodeGroup0_ne_unknown]
  case h_9 ho => simp only [decodeGroup8_eq_unknown_iff]; simp [ho]
  case h_16 =>
    have ho : fieldO op = 0xF#4 := by simp only [imp_false] at *; bv_omega
    simp [ho, decodeGroupF_eq_unknown_iff]
  case h_6 ho | h_10 ho =>
    split
    next hn => simp [ho, hn]
    next hn => simp [ho, hn, eq_comm (a := w)]
  case h_14 ho | h_15 ho => simp [ho, eq_comm]
  all_goals next ho => simp [ho]

/-- Settles O6. -/
theorem groupZeroGivesExactWordsPriority : Obligations.GroupZeroGivesExactWordsPriority :=
  decode_word_of_group0

/-- Settles O1: each word is evaluated. -/
theorem listedWordsDecodeAsGiven : Obligations.ListedWordsDecodeAsGiven := by
  unfold Obligations.ListedWordsDecodeAsGiven
  decide

end Sys2Proof
end

section
/-! The other arithmetic-logic instructions (40_alu.md R110 to R113), control flow (41_control.md), the delay timer
and the random byte (42_index_timer_rnd.md), Sys and Cls (43_unimplemented.md): what each does, in every state. -/

namespace Sys2Proof.Machine

/-! ### The state after each instruction -/

section Exec

variable (x y : RegIdx) (kk : Byte) (nnn : Addr) (s : State)

theorem exec_sub : exec (.sub x y) s =
    .next (s.setResultThenFlag x (subMod (s.reg x) (s.reg y)) (notBorrowFlag (s.reg x) (s.reg y))) := rfl

theorem exec_subn : exec (.subn x y) s =
    .next (s.setResultThenFlag x (subMod (s.reg y) (s.reg x)) (notBorrowFlag (s.reg y) (s.reg x))) := rfl

theorem exec_shr : exec (.shr x) s =
    .next (s.setResultThenFlag x (shiftRight1 (s.reg x)) (shiftOutRight (s.reg x))) := rfl

theorem exec_shl : exec (.shl x) s =
    .next (s.setResultThenFlag x (shiftLeft1 (s.reg x)) (shiftOutLeft (s.reg x))) := rfl

theorem exec_se : exec (.se x y) s = .next (s.skipIf (s.reg x == s.reg y)) := rfl

theorem exec_sne : exec (.sne x y) s = .next (s.skipIf (s.reg x != s.reg y)) := rfl

theorem exec_seByte : exec (.seByte x kk) s = .next (s.skipIf (s.reg x == kk)) := rfl

theorem exec_sneByte : exec (.sneByte x kk) s = .next (s.skipIf (s.reg x != kk)) := rfl

theorem exec_jp : exec (.jp nnn) s = .next (s.setPC (operandAddr nnn)) := rfl

theorem exec_jpV0 : exec (.jpV0 nnn) s = .next (s.setPC (operandAddr nnn + operandV0 s)) := rfl

theorem exec_ldVxDelay : exec (.ldVxDelay x) s = .next (s.setReg x s.DT) := rfl

theorem exec_ldDelayVx : exec (.ldDelayVx x) s = .next (s.setDT (s.reg x)) := rfl

theorem exec_rnd : exec (.rnd x kk) s = .next (s.consumeDraw.setReg x (s.nextDraw &&& kk)) := rfl

theorem exec_sys : exec (.sys nnn) s = .fault (.unimplemented (.sys nnn)) := rfl

theorem exec_cls : exec .cls s = .fault (.unimplemented .cls) := rfl

variable {s}

/-- 41 R148: a full stack (D4). -/
theorem exec_call_of_full (h : s.env.params.stackDepth = some s.stack.length) :
    exec (.call nnn) s = .fault (.stackOverflow s.pc) :=
  if_pos ((State.stackFull_iff s).2 h)

/-- 41 R148: the mask on nnn has no effect. -/
theorem exec_call_of_not_full (h : s.env.params.stackDepth ≠ some s.stack.length) :
    exec (.call nnn) s = .next ((s.push s.pc).setPC (operandAddr nnn)) := by
  rw [← maskPC_operandAddr nnn]
  exact if_neg (mt (State.stackFull_iff s).1 h)

theorem exec_ret_of_cons {r : Word} {rest : List Word} (h : s.stack = r :: rest) :
    exec .ret s = .next (s.dropTop.setPC (maskPC r)) := by
  simp only [exec, execRet, h, done]

theorem exec_ret_of_inert (h : s.stack = []) (hp : s.env.params.retOnEmpty = .inert) : exec .ret s = .next s := by
  simp only [exec, execRet, h, hp, done]

theorem exec_ret_of_fault (h : s.stack = []) (hp : s.env.params.retOnEmpty = .fault) :
    exec .ret s = .fault .stackUnderflow := by
  simp only [exec, execRet, h, hp, raise]

end Exec

/-! ### Frames of the writes to pc and stack -/

section Frames

variable (s : State)

theorem onlyPCChanges_setPC (v : Word) : OnlyPCChanges s (s.setPC v) :=
  ⟨⟨fun _ => rfl, rfl, rfl, rfl, fun _ => rfl, rfl⟩, rfl⟩

theorem onlyPCChanges_skipIf (c : Bool) : OnlyPCChanges s (s.skipIf c) :=
  s.skipIf_eq c ▸ onlyPCChanges_setPC s _

theorem onlyControlChanges_setPC_setStack (st : List Word) (v : Word) :
    OnlyControlChanges s ((s.setStack st).setPC v) :=
  ⟨fun _ => rfl, rfl, rfl, rfl, fun _ => rfl, rfl⟩

/-- 41 R141: pc after a skip, as a number. -/
theorem State.skipIf_pc_toNat (c : Bool) :
    (s.skipIf c).pc.toNat = if c then (s.pc.toNat + 2) % 65536 else s.pc.toNat := by
  rw [s.skipIf_pc, apply_ite BitVec.toNat, nextPC_toNat]

/-- A skip on "equal" (41 R142, R144). -/
theorem State.skipIf_beq_pc_toNat (a b : Byte) :
    (s.skipIf (a == b)).pc.toNat = if a = b then (s.pc.toNat + 2) % 65536 else s.pc.toNat := by
  simp only [s.skipIf_pc_toNat, beq_iff_eq]

/-- A skip on "not equal" (41 R143, R145). -/
theorem State.skipIf_bne_pc_toNat (a b : Byte) :
    (s.skipIf (a != b)).pc.toNat = if a = b then s.pc.toNat else (s.pc.toNat + 2) % 65536 := by
  simp only [s.skipIf_pc_toNat, bne_iff_ne, ne_eq, ite_not]

end Frames

/-! ### Values -/

/-- 40 R110: `256 + (a - b)` where `a < b`, the difference itself elsewhere, is the difference mod 256. -/
theorem subMod_toInt_emod (a b : Byte) : ((subMod a b).toNat : Int) = (a.toNat - b.toNat : Int) % 256 := by
  have := b.isLt
  rw [subMod_toNat]
  omega

/-- 41 R147: nnn is below 2^12 and V0 below 2^8, so their sum does not wrap. -/
theorem jpV0_target_toNat (nnn : Addr) (s : State) :
    (operandAddr nnn + operandV0 s).toNat = nnn.toNat + (s.reg 0x0#4).toNat := by
  have := nnn.isLt
  have := (s.reg 0x0#4).isLt
  rw [BitVec.toNat_add, operandAddr_toNat, operandV0_toNat]
  omega

end Sys2Proof.Machine

namespace Sys2Proof

open Machine

/-! ### Arithmetic and shifts -/

/-- Settles O16: both operands are read before any write, and the flag goes to VF last. -/
theorem subAndSubnWriteDifferenceThenNotBorrow : Obligations.SubAndSubnWriteDifferenceThenNotBorrow := by
  refine ⟨fun x y => ⟨decode_word_of_sub x y, decode_word_of_subn x y⟩, fun x y s =>
    ⟨⟨_, exec_sub x y s, fun hx => ?sub, ?subFlag, onlyRegsChange_setResultThenFlag s x _ _⟩,
      ⟨_, exec_subn x y s, fun hx => ?subn, ?subnFlag, onlyRegsChange_setResultThenFlag s x _ _⟩⟩⟩
  case sub | subn => rw [s.reg_setResultThenFlag_same x _ _ hx, subMod_toInt_emod]
  case subFlag | subnFlag =>
    exact (congrArg BitVec.toNat (s.reg_regF_setResultThenFlag x _ _)).trans (notBorrowFlag_toNat _ _)

/-- Settles O17: result and lost bit are both of the old V[x], and the bit goes to VF last. -/
theorem shiftsWriteResultThenLostBit : Obligations.ShiftsWriteResultThenLostBit := by
  refine fun x s =>
    ⟨⟨_, exec_shr x s, fun hx => ?shr, ?shrFlag, onlyRegsChange_setResultThenFlag s x _ _⟩,
      ⟨_, exec_shl x s, fun hx => ?shl, ?shlFlag, onlyRegsChange_setResultThenFlag s x _ _⟩⟩
  case shr => rw [s.reg_setResultThenFlag_same x _ _ hx, shiftRight1_toNat]
  case shl => rw [s.reg_setResultThenFlag_same x _ _ hx, shiftLeft1_toNat, Nat.mul_comm]
  case shrFlag =>
    exact (congrArg BitVec.toNat (s.reg_regF_setResultThenFlag x _ _)).trans (shiftOutRight_toNat _)
  case shlFlag =>
    exact (congrArg BitVec.toNat (s.reg_regF_setResultThenFlag x _ _)).trans (shiftOutLeft_toNat _)

/-! ### Control flow -/

/-- Settles O19: each skip is `skipIf` on its condition. -/
theorem skipsAdvanceByTwoOnTheirCondition : Obligations.SkipsAdvanceByTwoOnTheirCondition :=
  ⟨fun x y => ⟨decode_word_of_se x y, decode_word_of_sne x y⟩,
    fun x kk => ⟨decode_word_of_seByte x kk, decode_word_of_sneByte x kk⟩,
    fun x y kk s =>
      ⟨⟨_, exec_se x y s, onlyPCChanges_skipIf s _, s.skipIf_beq_pc_toNat _ _⟩,
        ⟨_, exec_sne x y s, onlyPCChanges_skipIf s _, s.skipIf_bne_pc_toNat _ _⟩,
        ⟨_, exec_seByte x kk s, onlyPCChanges_skipIf s _, s.skipIf_beq_pc_toNat _ _⟩,
        ⟨_, exec_sneByte x kk s, onlyPCChanges_skipIf s _, s.skipIf_bne_pc_toNat _ _⟩⟩⟩

/-- With nothing scheduled there is no turn to spend. -/
theorem turnSpent_of_no_turns {s : State} (h : s.env.turns = []) : s.turnSpent = s := by
  rw [State.turnSpent, h, List.tail_nil, ← h]
  rfl

/-- Settles O20: the jump's one write, to pc, takes back the driver's advance where nnn is the address of the jump. -/
theorem jpSetsPCAndSelfJumpLoops : Obligations.JpSetsPCAndSelfJumpLoops := by
  refine ⟨decode_word_of_jp, fun nnn s => ⟨_, exec_jp nnn s, operandAddr_toNat nnn, onlyPCChanges_setPC s _⟩,
    fun nnn s hturns hpc hdec => ?_⟩
  have htarget : operandAddr nnn = s.pc := BitVec.eq_of_toNat_eq ((operandAddr_toNat nnn).trans hpc.symm)
  rw [step_driver s (fun c ts => by simp [hturns]), turnSpent_of_no_turns hturns, driverStep_next]
  refine ⟨.jp nnn, hdec, ?_⟩
  rw [exec_jp, htarget]
  rfl

/-- Settles O21. -/
theorem jpV0AddsWithoutMask : Obligations.JpV0AddsWithoutMask := by
  refine ⟨decode_word_of_jpV0, fun nnn s =>
    ⟨_, exec_jpV0 nnn s, jpV0_target_toNat nnn s, ?_, onlyPCChanges_setPC s _⟩⟩
  have := nnn.isLt
  have := (s.reg 0x0#4).isLt
  rw [State.setPC_pc, jpV0_target_toNat]
  omega

/-- Settles O22. -/
theorem callPushesPCAndJumps : Obligations.CallPushesPCAndJumps :=
  ⟨decode_word_of_call, fun nnn s h => ⟨_, exec_call_of_not_full nnn h, operandAddr_toNat nnn, rfl,
    onlyControlChanges_setPC_setStack s _ _⟩⟩

/-- Settles O23. -/
theorem callOnFullStackOverflows : Obligations.CallOnFullStackOverflows :=
  fun nnn _ h => exec_call_of_full nnn h

/-- Settles O24: one clause for each way Ret can go. -/
theorem retPopsAndMasksOrActsAsConfigured : Obligations.RetPopsAndMasksOrActsAsConfigured :=
  ⟨fun r _ s h => ⟨_, exec_ret_of_cons h, maskPC_toNat r, congrArg List.tail h,
      onlyControlChanges_setPC_setStack s _ _⟩,
    fun _ h hp => exec_ret_of_inert h hp, fun _ h hp => exec_ret_of_fault h hp⟩

/-- A stack below every bound is not at its bound. -/
theorem not_full_of_below {s : State} (h : ∀ d, s.env.params.stackDepth = some d → s.stack.length < d) :
    s.env.params.stackDepth ≠ some s.stack.length :=
  fun hd => Nat.lt_irrefl _ (h _ hd)

/-- Settles O25: Ret pops what Call pushed, so pc alone can differ, by the mask. -/
theorem callThenRetRestoresTheState : Obligations.CallThenRetRestoresTheState := by
  refine fun nnn s h => ⟨_, exec_call_of_not_full nnn (not_full_of_below h), operandAddr_toNat nnn, rfl,
    s.setPC (maskPC s.pc), exec_ret_of_cons (rest := s.stack) rfl, maskPC_toNat s.pc, fun hpc => ?_, rfl⟩
  have hmask : maskPC s.pc = s.pc :=
    BitVec.eq_of_toNat_eq ((maskPC_toNat s.pc).trans (Nat.mod_eq_of_lt (Nat.lt_succ_of_le hpc)))
  rw [hmask]
  rfl

/-! ### Delay timer and random byte -/

/-- Settles O27: the one write of LdVxDelay is DT to V[x]. -/
theorem ldVxDelayReadsDelayTimer : Obligations.LdVxDelayReadsDelayTimer :=
  ⟨decode_word_of_ldVxDelay, fun x s =>
    ⟨_, exec_ldVxDelay x s, s.reg_setReg_same x s.DT, onlyRegsChange_setReg s x s.DT⟩⟩

/-- Settles O28: the one write of LdDelayVx is V[x] to DT. -/
theorem ldDelayVxWritesDelayTimer : Obligations.LdDelayVxWritesDelayTimer :=
  ⟨decode_word_of_ldDelayVx, fun x s =>
    ⟨_, exec_ldDelayVx x s, rfl, fun _ => rfl, rfl, rfl, rfl, rfl, fun _ => rfl, rfl⟩⟩

theorem nextDraw_of_cons {s : State} {r : Byte} {rs : List Byte} (h : s.env.rndScript = r :: rs) :
    s.nextDraw = r := by
  simp only [State.nextDraw, h]

/-- Settles O29: V[x] gets the draw under the mask, and the one other write is the draw's own. -/
theorem rndMasksExactlyOneDraw : Obligations.RndMasksExactlyOneDraw := by
  refine ⟨decode_word_of_rnd, fun x kk s => ⟨_, exec_rnd x kk s, ?value, ?bound, fun r rs hr => ⟨?scripted, ?rest⟩,
    rfl, fun j hj => ?others, rfl, rfl, rfl, rfl, rfl, fun _ => rfl⟩⟩
  case value => exact s.consumeDraw.reg_setReg_same x _
  case bound =>
    rw [s.consumeDraw.reg_setReg_same, BitVec.toNat_and]
    exact Nat.and_le_right
  case scripted => rw [s.consumeDraw.reg_setReg_same, nextDraw_of_cons hr]
  case rest => exact congrArg List.tail hr
  case others => exact s.consumeDraw.reg_setReg_other x j _ hj

/-! ### Sys and Cls -/

/-- Settles O32. -/
theorem sysAndClsSignalUnimplemented : Obligations.SysAndClsSignalUnimplemented :=
  ⟨fun _ => decode_word_of_sys, decode_word_of_sys (nnn := 0x000#12) (by decide) (by decide), decode_word_of_cls,
    exec_sys, exec_cls⟩

end Sys2Proof
end

section
/-! All instructions at once (10_state.md R36, 60_exceptions.md R201 to R203): what a completing instruction can have
done to the state, said once as a relation; in which states an instruction does not complete; and that none reads
memory or ST. -/

namespace Sys2Proof.Machine

/-! ### What a completing instruction can have done -/

/-- 10 R36, the "writes" column: the writes instruction `i` may make from state `s`, with what limits their values. -/
inductive InstrEffect (s : State) : Instr → State → Prop
  | data {i : Instr} {x : RegIdx} (v : Byte) (hi : regWrites i = [x]) : InstrEffect s i (s.setReg x v)
  | draw (x : RegIdx) (kk v : Byte) : InstrEffect s (.rnd x kk) (s.consumeDraw.setReg x v)
  | flag {i : Instr} {x : RegIdx} (result : Byte) {bit : Byte} (hi : regWrites i = [x, regF])
      (hbit : bit = 0x00#8 ∨ bit = 0x01#8) : InstrEffect s i (s.setResultThenFlag x result bit)
  | jump {i : Instr} (pc : Word) (hi : mayWritePC i = true) : InstrEffect s i (s.setPC pc)
  | call (nnn : Addr) (pc : Word) (hfull : s.stackFull = false) : InstrEffect s (.call nnn) ((s.push s.pc).setPC pc)
  | ret (pc : Word) : InstrEffect s .ret (s.dropTop.setPC pc)
  | index (nnn : Addr) : InstrEffect s (.ldi nnn) (s.setI (operandAddr nnn))
  | delay (x : RegIdx) (v : Byte) : InstrEffect s (.ldDelayVx x) (s.setDT v)

/-! ### Flags are 0 or 1 (40 R102) -/

theorem flagByte_bit (c : Bool) : flagByte c = 0x00#8 ∨ flagByte c = 0x01#8 := by
  cases c
  · exact .inl rfl
  · exact .inr rfl

theorem shiftOutRight_bit (v : Byte) : shiftOutRight v = 0x00#8 ∨ shiftOutRight v = 0x01#8 := by
  have h := shiftOutRight_toNat v
  bv_omega

theorem shiftOutLeft_bit (v : Byte) : shiftOutLeft v = 0x00#8 ∨ shiftOutLeft v = 0x01#8 := by
  have h := shiftOutLeft_toNat v
  have := v.isLt
  bv_omega

/-! ### The effect of each instruction -/

section Exec

variable {i : Instr} {s t : State} {f : Fault}

/-- Everything an instruction that completes can have done. -/
theorem exec_next_effect (h : exec i s = .next t) : InstrEffect s i t := by
  cases i with
  | ldByte x kk | addByte x kk | ld x y | or x y | and x y | xor x y | ldVxDelay x => cases h; exact .data _ rfl
  | rnd x kk => cases h; exact .draw x kk _
  | add x y | sub x y | subn x y => cases h; exact .flag _ rfl (flagByte_bit _)
  | shr x => cases h; exact .flag _ rfl (shiftOutRight_bit _)
  | shl x => cases h; exact .flag _ rfl (shiftOutLeft_bit _)
  | se x y | sne x y | seByte x kk | sneByte x kk => cases h; rw [s.skipIf_eq]; exact .jump _ rfl
  | jp nnn | jpV0 nnn => cases h; exact .jump _ rfl
  | ldi nnn => cases h; exact .index nnn
  | ldDelayVx x => cases h; exact .delay x _
  | sys nnn | cls => cases h
  | call nnn =>
    by_cases hfull : s.env.params.stackDepth = some s.stack.length
    · cases (exec_call_of_full nnn hfull).symm.trans h
    · cases (exec_call_of_not_full nnn hfull).symm.trans h
      exact .call nnn _ (Bool.eq_false_iff.2 (mt (State.stackFull_iff s).1 hfull))
  | ret =>
    cases hstack : s.stack with
    | cons r rest => cases (exec_ret_of_cons hstack).symm.trans h; exact .ret _
    | nil =>
      cases hp : s.env.params.retOnEmpty with
      | inert => cases (exec_ret_of_inert hstack hp).symm.trans h; exact .jump s.pc rfl
      | fault => cases (exec_ret_of_fault hstack hp).symm.trans h

/-! ### What no instruction writes (10 R36) -/

theorem InstrEffect.mem_eq (h : InstrEffect s i t) : t.mem = s.mem := by cases h <;> rfl

theorem InstrEffect.ST_eq (h : InstrEffect s i t) : t.ST = s.ST := by cases h <;> rfl

theorem InstrEffect.params_eq (h : InstrEffect s i t) : t.env.params = s.env.params := by cases h <;> rfl

theorem InstrEffect.turns_eq (h : InstrEffect s i t) : t.env.turns = s.env.turns := by cases h <;> rfl

/-! ### What only some instructions write (10 R36) -/

theorem InstrEffect.reg_eq (h : InstrEffect s i t) (j : RegIdx) (hj : j ∉ regWrites i) : t.reg j = s.reg j := by
  cases h with
  | data v hi => exact s.reg_setReg_other _ j v (by simpa [hi] using hj)
  | draw x kk v => exact s.consumeDraw.reg_setReg_other x j v (by simpa [regWrites] using hj)
  | flag result hi =>
    obtain ⟨hframe, -⟩ := onlyRegsChange_setResultThenFlag s _ result _
    exact hframe j (hi ▸ hj)
  | _ => rfl

theorem InstrEffect.pc_eq (h : InstrEffect s i t) (hi : mayWritePC i = false) : t.pc = s.pc := by
  cases h with
  | jump pc hpc => cases hpc.symm.trans hi
  | call nnn pc hfull => cases hi
  | ret pc => cases hi
  | _ => rfl

theorem InstrEffect.I_eq (h : InstrEffect s i t) (hi : ∀ nnn, i ≠ .ldi nnn) : t.I = s.I := by
  cases h with
  | index nnn => exact absurd rfl (hi nnn)
  | _ => rfl

theorem InstrEffect.DT_eq (h : InstrEffect s i t) (hi : ∀ x, i ≠ .ldDelayVx x) : t.DT = s.DT := by
  cases h with
  | delay x v => exact absurd rfl (hi x)
  | _ => rfl

theorem InstrEffect.stack_eq (h : InstrEffect s i t) (hcall : ∀ nnn, i ≠ .call nnn) (hret : i ≠ .ret) :
    t.stack = s.stack := by
  cases h with
  | call nnn pc hfull => exact absurd rfl (hcall nnn)
  | ret pc => exact absurd rfl hret
  | _ => rfl

theorem InstrEffect.env_eq (h : InstrEffect s i t) (hi : ∀ x kk, i ≠ .rnd x kk) : t.env = s.env := by
  cases h with
  | draw x kk v => exact absurd rfl (hi x kk)
  | _ => rfl

/-! ### Which instructions write which registers (10 R23) -/

theorem flagWriter_of_regWrites {x : RegIdx} (h : regWrites i = [x, regF]) :
    (∃ x y, i = .add x y) ∨ (∃ x y, i = .sub x y) ∨ (∃ x y, i = .subn x y) ∨ (∃ x, i = .shr x) ∨ ∃ x, i = .shl x := by
  cases i with
  | add x y => exact .inl ⟨x, y, rfl⟩
  | sub x y => exact .inr (.inl ⟨x, y, rfl⟩)
  | subn x y => exact .inr (.inr (.inl ⟨x, y, rfl⟩))
  | shr x => exact .inr (.inr (.inr (.inl ⟨x, rfl⟩)))
  | shl x => exact .inr (.inr (.inr (.inr ⟨x, rfl⟩)))
  | _ => cases h

theorem dataWriter_of_regWrites {x : RegIdx} (h : regWrites i = [x]) :
    (∃ kk, i = .ldByte x kk) ∨ (∃ kk, i = .addByte x kk) ∨ (∃ y, i = .ld x y) ∨ (∃ y, i = .or x y) ∨
      (∃ y, i = .and x y) ∨ (∃ y, i = .xor x y) ∨ (∃ kk, i = .rnd x kk) ∨ i = .ldVxDelay x := by
  cases i with
  | ldByte x kk => cases h; exact .inl ⟨kk, rfl⟩
  | addByte x kk => cases h; exact .inr (.inl ⟨kk, rfl⟩)
  | ld x y => cases h; exact .inr (.inr (.inl ⟨y, rfl⟩))
  | or x y => cases h; exact .inr (.inr (.inr (.inl ⟨y, rfl⟩)))
  | and x y => cases h; exact .inr (.inr (.inr (.inr (.inl ⟨y, rfl⟩))))
  | xor x y => cases h; exact .inr (.inr (.inr (.inr (.inr (.inl ⟨y, rfl⟩)))))
  | rnd x kk => cases h; exact .inr (.inr (.inr (.inr (.inr (.inr (.inl ⟨kk, rfl⟩))))))
  | ldVxDelay x => cases h; exact .inr (.inr (.inr (.inr (.inr (.inr (.inr rfl))))))
  | _ => cases h

/-- A register write changes no register but its own. -/
theorem eq_of_reg_setReg_ne {x j : RegIdx} {v : Byte} (h : (s.setReg x v).reg j ≠ s.reg j) : x = j :=
  by_contra fun hx => h (s.reg_setReg_other x j v fun hj => hx hj.symm)

/-! ### Which instructions do not complete (60 R201 to R203) -/

/-- The four cases in which an instruction does not complete (R202, R203), or it completes. -/
theorem exec_cases (i : Instr) (s : State) :
    (∃ nnn, i = .sys nnn ∧ exec i s = .fault (.unimplemented (.sys nnn))) ∨
    (i = .cls ∧ exec i s = .fault (.unimplemented .cls)) ∨
    (∃ nnn, i = .call nnn ∧ s.env.params.stackDepth = some s.stack.length ∧ exec i s = .fault (.stackOverflow s.pc)) ∨
    (i = .ret ∧ s.stack = [] ∧ s.env.params.retOnEmpty = .fault ∧ exec i s = .fault .stackUnderflow) ∨
    ∃ t, exec i s = .next t := by
  cases i with
  | sys nnn => exact .inl ⟨nnn, rfl, rfl⟩
  | cls => exact .inr (.inl ⟨rfl, rfl⟩)
  | call nnn =>
    by_cases hfull : s.env.params.stackDepth = some s.stack.length
    · exact .inr (.inr (.inl ⟨nnn, rfl, hfull, exec_call_of_full nnn hfull⟩))
    · exact .inr (.inr (.inr (.inr ⟨_, exec_call_of_not_full nnn hfull⟩)))
  | ret =>
    cases hstack : s.stack with
    | cons r rest => exact .inr (.inr (.inr (.inr ⟨_, exec_ret_of_cons hstack⟩)))
    | nil =>
      cases hp : s.env.params.retOnEmpty with
      | inert => exact .inr (.inr (.inr (.inr ⟨s, exec_ret_of_inert hstack hp⟩)))
      | fault => exact .inr (.inr (.inr (.inl ⟨rfl, rfl, rfl, exec_ret_of_fault hstack hp⟩)))
  | _ => exact .inr (.inr (.inr (.inr ⟨_, rfl⟩)))

theorem exec_ne_refused (i : Instr) (s : State) (r : Refusal) : exec i s ≠ .refused r := by
  intro h
  obtain ⟨nnn, -, he⟩ | ⟨-, he⟩ | ⟨nnn, -, -, he⟩ | ⟨-, -, -, he⟩ | ⟨t, he⟩ := exec_cases i s <;> cases he.symm.trans h

/-- Why an instruction stops, and with which outcome (R201). -/
theorem exec_fault_cause (h : exec i s = .fault f) :
    (f = .unimplemented i ∧ (i = .cls ∨ ∃ nnn, i = .sys nnn)) ∨
    (∃ nnn, i = .call nnn ∧ s.env.params.stackDepth = some s.stack.length ∧ f = .stackOverflow s.pc) ∨
    (i = .ret ∧ s.stack = [] ∧ s.env.params.retOnEmpty = .fault ∧ f = .stackUnderflow) := by
  obtain ⟨nnn, rfl, he⟩ | ⟨rfl, he⟩ | ⟨nnn, rfl, hfull, he⟩ | ⟨rfl, hstack, hp, he⟩ | ⟨t, he⟩ := exec_cases i s
  · cases he.symm.trans h
    exact .inl ⟨rfl, .inr ⟨nnn, rfl⟩⟩
  · cases he.symm.trans h
    exact .inl ⟨rfl, .inl rfl⟩
  · cases he.symm.trans h
    exact .inr (.inl ⟨nnn, rfl, hfull, rfl⟩)
  · cases he.symm.trans h
    exact .inr (.inr ⟨rfl, hstack, hp, rfl⟩)
  · cases he.symm.trans h

/-- In none of the four cases does an instruction complete. -/
theorem completes_only_elsewhere (h : exec i s = .next t) : (∀ nnn, i ≠ .sys nnn) ∧ i ≠ .cls ∧
    (∀ nnn, i = .call nnn → s.env.params.stackDepth ≠ some s.stack.length) ∧
    (i = .ret → s.stack = [] → s.env.params.retOnEmpty ≠ .fault) := by
  refine ⟨fun nnn hi => ?sys, fun hi => ?cls, fun nnn hi hfull => ?call, fun hi hstack hp => ?ret⟩
  case sys => subst hi; cases h
  case cls => subst hi; cases h
  case call => subst hi; cases (exec_call_of_full nnn hfull).symm.trans h
  case ret => subst hi; cases (exec_ret_of_fault hstack hp).symm.trans h

end Exec

/-! ### Another memory and another ST, past an instruction -/

/-- An outcome with `g` applied to the state it gives, where it gives one. -/
def onNext (g : State → State) : Result → Result
  | .next t => .next (g t)
  | .fault f => .fault f
  | .refused r => .refused r

/-- Another memory and another ST. -/
def State.withMemST (m : Memory) (v : Byte) (s : State) : State := (s.setMem m).setST v

theorem State.skipIf_withMemST (m : Memory) (v : Byte) (s : State) (c : Bool) :
    (s.withMemST m v).skipIf c = (s.skipIf c).withMemST m v := by
  rw [State.skipIf_eq, State.skipIf_eq]
  rfl

theorem execCall_withMemST (m : Memory) (v : Byte) (nnn : Addr) (s : State) :
    execCall nnn (s.withMemST m v) = onNext (State.withMemST m v) (execCall nnn s) := by
  have hfull : (s.withMemST m v).stackFull = s.stackFull := rfl
  unfold execCall
  rw [hfull]
  split
  · rfl
  · rfl

theorem execRet_withMemST (m : Memory) (v : Byte) (s : State) :
    execRet (s.withMemST m v) = onNext (State.withMemST m v) (execRet s) := by
  have hstack : (s.withMemST m v).stack = s.stack := rfl
  have henv : (s.withMemST m v).env = s.env := rfl
  unfold execRet
  rw [hstack, henv]
  split
  · split
    · rfl
    · rfl
  · rfl

/-- No instruction reads memory or ST: with others there it ends the same way, and leaves them there. -/
theorem exec_withMemST (m : Memory) (v : Byte) (i : Instr) (s : State) :
    exec i (s.withMemST m v) = onNext (State.withMemST m v) (exec i s) := by
  cases i with
  | se x y | sne x y | seByte x kk | sneByte x kk => exact congrArg done (State.skipIf_withMemST m v s _)
  | call nnn => exact execCall_withMemST m v nnn s
  | ret => exact execRet_withMemST m v s
  | _ => rfl -- one path, whose writes commute with those to memory and ST

end Sys2Proof.Machine

namespace Sys2Proof

open Machine

/-- Settles O36: each clause is read off what a completing instruction can have done. -/
theorem instructionsWriteOnlyWhatTheMatrixLists : Obligations.InstructionsWriteOnlyWhatTheMatrixLists := by
  intro i s t h
  have heff := exec_next_effect h
  exact ⟨heff.reg_eq, heff.pc_eq, heff.I_eq, heff.DT_eq, heff.ST_eq,
    fun a => congrArg (Memory.read · a) heff.mem_eq, heff.stack_eq, heff.env_eq⟩

/-- Settles O18: VF differs only after a register write, which is one of a flag writer, or has VF as its destination. -/
theorem vfChangesOnlyAsFlagOrDestination : Obligations.VFChangesOnlyAsFlagOrDestination := by
  intro i s t h hne
  cases exec_next_effect h with
  | data v hi => exact .inr (dataWriter_of_regWrites (eq_of_reg_setReg_ne hne ▸ hi))
  | draw x kk v =>
    obtain rfl := eq_of_reg_setReg_ne (s := s.consumeDraw) hne
    exact .inr (dataWriter_of_regWrites rfl)
  | flag result hi hbit =>
    exact .inl ⟨flagWriter_of_regWrites hi, (s.reg_regF_setResultThenFlag _ result _).symm ▸ hbit⟩
  | _ => exact absurd rfl hne

/-- Settles O33. -/
theorem instructionsCompleteButInFourCases : Obligations.InstructionsCompleteButInFourCases := by
  intro i s
  refine (exec_cases i s).imp_right (Or.imp_right (Or.imp_right (Or.imp_right ?_)))
  rintro ⟨t, h⟩
  obtain ⟨hsys, hcls, hcall, hret⟩ := completes_only_elsewhere h
  exact ⟨hsys, hcls, hcall, hret, t, h⟩

/-- Settles O37: both clauses are instances of `exec_withMemST`. -/
theorem instructionsReadNeitherMemoryNorSoundTimer : Obligations.InstructionsReadNeitherMemoryNorSoundTimer :=
  fun i s m v => ⟨fun _ h => (exec_withMemST m v i s).trans (congrArg _ h),
    fun _ h => (exec_withMemST m v i s).trans (congrArg _ h)⟩

end Sys2Proof
end

section
/-! The driver's step and the step of any agent (60_exceptions.md R201, R220): what runs, what a step keeps, and why it
stops; the host's Get and Set (10_state.md R33, R34); and that every step keeps the invariant of R20. -/

namespace Sys2Proof.Machine

/-! ### The driver's step (60 R220, 20 R53) -/

/-- 20 R53: each byte's address is reduced mod 4096 by itself. -/
theorem State.fetch_eq_of_bytes (s : State) : s.fetch =
    wordOfBytes (s.mem.read (s.pc.toNat % 4096)) (s.mem.read ((s.pc.toNat + 1) % 4096)) := by
  have haddr1 : (s.pc + 1#16).toNat % 4096 = (s.pc.toNat + 1) % 4096 := by bv_omega
  rw [State.fetch, fetchAddr0, fetchAddr1, maskAddr_toNat, maskAddr_toNat, haddr1]

section Driver

variable {s t : State} {f : Fault}

theorem driverStep_of_instr {i : Instr} (h : decode s.fetch = .instr i) : driverStep s = exec i s.advance := by
  simp only [driverStep, h]

theorem driverStep_of_unknown {op : Word} (h : decode s.fetch = .unknown op) :
    driverStep s = .fault (.decodeFailure op) := by
  simp only [driverStep, h, raise]

/-- A driver's step that stops is an Unknown word, or an instruction that stops. -/
theorem driverStep_fault (h : driverStep s = .fault f) :
    (∃ op, decode s.fetch = .unknown op ∧ f = .decodeFailure op) ∨
    ∃ i, decode s.fetch = .instr i ∧ exec i s.advance = .fault f := by
  cases hd : decode s.fetch with
  | unknown op => cases (driverStep_of_unknown hd).symm.trans h; exact .inl ⟨op, rfl, rfl⟩
  | instr i => exact .inr ⟨i, rfl, (driverStep_of_instr hd).symm.trans h⟩

theorem driverStep_ne_refused (s : State) (r : Refusal) : driverStep s ≠ .refused r := by
  intro h
  cases hd : decode s.fetch with
  | unknown op => cases (driverStep_of_unknown hd).symm.trans h
  | instr i => exact exec_ne_refused i s.advance r ((driverStep_of_instr hd).symm.trans h)

/-- A step of the driver that goes on did what one decoded instruction can do. -/
theorem step_driver_effect (hd : s.driverMoves) (h : step s = .next t) :
    ∃ i, InstrEffect s.turnSpent.advance i t := by
  obtain ⟨i, -, hexec⟩ := (driverStep_next s.turnSpent t).1 ((step_driver s hd).symm.trans h)
  exact ⟨i, exec_next_effect hexec⟩

/-- A step that goes on did what an instruction can do, or is a host call. -/
theorem step_next_cases (h : step s = .next t) :
    (∃ i, InstrEffect s.turnSpent.advance i t) ∨ ∃ c a, hostCall c s.turnSpent = .ok (a, t) := by
  obtain ⟨hd, -⟩ | ⟨c, ts, -, hs⟩ := step_cases s
  · exact .inl (step_driver_effect hd h)
  · exact .inr ⟨c, hostStep_next c s.turnSpent t (hs.symm.trans h)⟩

end Driver

/-! ### A word placed for the next fetch -/

/-- The driver's turn put in front of the schedule is spent by its step; one that stood there is spent too. -/
theorem turnSpent_withDriverNext (s : State) : ∃ ts, (ts = s.env.turns ∨ s.env.turns = .driver :: ts) ∧
    s.withDriverNext.turnSpent = s.setTurns ts := by
  unfold State.withDriverNext
  split
  next h => exact ⟨s.env.turns, .inl rfl, by rw [turnSpent_of_no_turns h]; rfl⟩
  next ts h => exact ⟨ts, .inr h, by rw [State.turnSpent, h, List.tail_cons]⟩
  next c ts h => exact ⟨s.env.turns, .inl rfl, by rw [h]; rfl⟩

/-- What the decoder reads from a table word, as `decode` gives it. -/
theorem decode_of_decodeTableWord {nbits w : Nat} {i : Instr} (h : decodeTableWord nbits w = some i) :
    decode (tableWord nbits w) = .instr i := by
  unfold decodeTableWord at h
  simp only [decodeBytes_bytes] at h
  split at h
  next hd => cases h; exact hd
  next => cases h

/-! ### Get and Set (10 R33, R34) -/

/-- R34: an index of the space `sp`. -/
def Space.InRange (sp : Space) (n : Nat) : Prop := sp = .reg ∧ n < 16 ∨ sp = .mem ∧ n < 4096

/-- R34: a bad index of the space `sp`. -/
def Space.OutOfRange (sp : Space) (n : Nat) : Prop := sp = .reg ∧ 16 ≤ n ∨ sp = .mem ∧ 4096 ≤ n

theorem Space.inRange_or_outOfRange (sp : Space) (n : Nat) : sp.InRange n ∨ sp.OutOfRange n := by
  cases sp with
  | reg => exact (Nat.lt_or_ge n 16).imp (fun h => .inl ⟨rfl, h⟩) fun h => .inl ⟨rfl, h⟩
  | mem => exact (Nat.lt_or_ge n 4096).imp (fun h => .inr ⟨rfl, h⟩) fun h => .inr ⟨rfl, h⟩

section Mux

variable {sp : Space} {n : Nat} {s t : State}

theorem muxGet_of_inRange (h : sp.InRange n) (s : State) : ∃ b, muxGet sp n s = .ok b := by
  obtain ⟨rfl, hn⟩ | ⟨rfl, hn⟩ := h
  · exact ⟨_, if_pos hn⟩
  · exact ⟨_, if_pos hn⟩

theorem muxGet_of_outOfRange (h : sp.OutOfRange n) (s : State) : muxGet sp n s = .error (.indexOutOfRange sp n) := by
  obtain ⟨rfl, hn⟩ | ⟨rfl, hn⟩ := h
  · exact if_neg (Nat.not_lt.2 hn)
  · exact if_neg (Nat.not_lt.2 hn)

theorem muxSet_of_inRange (h : sp.InRange n) (v : Byte) (s : State) : ∃ t, muxSet sp n v s = .ok t := by
  obtain ⟨rfl, hn⟩ | ⟨rfl, hn⟩ := h
  · exact ⟨_, if_pos hn⟩
  · exact ⟨_, if_pos hn⟩

theorem muxSet_of_outOfRange (h : sp.OutOfRange n) (v : Byte) (s : State) :
    muxSet sp n v s = .error (.indexOutOfRange sp n) := by
  obtain ⟨rfl, hn⟩ | ⟨rfl, hn⟩ := h
  · exact if_neg (Nat.not_lt.2 hn)
  · exact if_neg (Nat.not_lt.2 hn)

theorem muxGet_setTurns (sp : Space) (n : Nat) (s : State) (ts : List Turn) :
    muxGet sp n (s.setTurns ts) = muxGet sp n s := by
  cases sp <;> rfl

/-- Indices below 16 name different registers. -/
theorem ofNat_regIdx_ne {m n : Nat} (hm : m < numRegs) (hn : n < numRegs) (h : m ≠ n) :
    BitVec.ofNat 4 m ≠ BitVec.ofNat 4 n := by
  intro he
  have hm' : m % 2 ^ 4 = m := Nat.mod_eq_of_lt hm
  have hn' : n % 2 ^ 4 = n := Nat.mod_eq_of_lt hn
  have hmod := congrArg BitVec.toNat he
  rw [BitVec.toNat_ofNat, BitVec.toNat_ofNat, hm', hn'] at hmod
  exact h hmod

variable {v : Byte}

/-- 20 R59: a Get gives what a Set put there. -/
theorem muxGet_muxSet_same (h : muxSet sp n v s = .ok t) : muxGet sp n t = .ok v := by
  obtain ⟨rfl, hn, rfl⟩ | ⟨rfl, hn, rfl⟩ := muxSet_ok sp n v s t h
  · rw [muxGet, if_pos hn, State.reg_setReg_same]
  · rw [muxGet, if_pos hn, State.setMem_mem, Memory.read_write_same]

/-- A Get of another index, or of the other space, gives what it gave before a Set. -/
theorem muxGet_muxSet_other (h : muxSet sp n v s = .ok t) {sp' : Space} {m : Nat} (hne : (sp', m) ≠ (sp, n)) :
    muxGet sp' m t = muxGet sp' m s := by
  obtain ⟨rfl, hn, rfl⟩ | ⟨rfl, hn, rfl⟩ := muxSet_ok sp n v s t h
  · cases sp' with
    | mem => rfl
    | reg =>
      have hmn : m ≠ n := fun e => hne (e ▸ rfl)
      by_cases hm : m < numRegs
      · rw [muxGet, muxGet, if_pos hm, if_pos hm, State.reg_setReg_other _ _ _ _ (ofNat_regIdx_ne hm hn hmn)]
      · rw [muxGet, muxGet, if_neg hm, if_neg hm]
  · cases sp' with
    | reg => rfl
    | mem =>
      have hmn : m ≠ n := fun e => hne (e ▸ rfl)
      rw [muxGet, muxGet, State.setMem_mem, Memory.read_write_other _ _ _ _ hmn]

/-! ### The host's calls -/

theorem hostCall_get {b : Byte} (h : muxGet sp n s = .ok b) : hostCall (.get sp n) s = .ok (.byte b, s) := by
  simp only [hostCall, h, Except.map]

theorem hostCall_set (h : muxSet sp n v s = .ok t) : hostCall (.set sp n v) s = .ok (.none, t) := by
  simp only [hostCall, h, Except.map]

theorem hostCall_get_of_outOfRange (h : sp.OutOfRange n) (s : State) :
    hostCall (.get sp n) s = .error (.indexOutOfRange sp n) := by
  simp only [hostCall, muxGet_of_outOfRange h, Except.map]

theorem hostCall_set_of_outOfRange (h : sp.OutOfRange n) (v : Byte) (s : State) :
    hostCall (.set sp n v) s = .error (.indexOutOfRange sp n) := by
  simp only [hostCall, muxSet_of_outOfRange h, Except.map]

/-- Log 15: as Call on a full stack. -/
theorem hostCall_push_of_full {w : Word} (h : s.env.params.stackDepth = some s.stack.length) :
    hostCall (.push w) s = .error (.stackOverflow w) := by
  simp only [hostCall, hostPush, if_pos ((State.stackFull_iff s).2 h), Except.map]

theorem hostCall_push_of_not_full {w : Word} (h : s.env.params.stackDepth ≠ some s.stack.length) :
    hostCall (.push w) s = .ok (.none, s.push w) := by
  simp only [hostCall, hostPush, if_neg (mt (State.stackFull_iff s).1 h), Except.map]

theorem hostCall_pop_of_cons {r : Word} {rest : List Word} (h : s.stack = r :: rest) :
    hostCall .pop s = .ok (.word r, s.dropTop) := by
  simp only [hostCall, hostPop, h]

/-- Log 15: on an empty stack nothing is popped. -/
theorem hostCall_pop_of_nil (h : s.stack = []) : hostCall .pop s = .ok (.none, s) := by
  simp only [hostCall, hostPop, h]

/-- Why a host call stops: a bad index (R34), or a Push on a full stack (log 15). -/
theorem hostCall_error {c : HostCall} {f : Fault} (h : hostCall c s = .error f) :
    (∃ sp n, f = .indexOutOfRange sp n ∧ (c = .get sp n ∨ ∃ v, c = .set sp n v) ∧ sp.OutOfRange n) ∨
    ∃ w, c = .push w ∧ f = .stackOverflow w ∧ s.env.params.stackDepth = some s.stack.length := by
  cases c with
  | get sp n =>
    obtain hin | hout := sp.inRange_or_outOfRange n
    · obtain ⟨b, hb⟩ := muxGet_of_inRange hin s
      cases (hostCall_get hb).symm.trans h
    · cases (hostCall_get_of_outOfRange hout s).symm.trans h
      exact .inl ⟨sp, n, rfl, .inl rfl, hout⟩
  | set sp n v =>
    obtain hin | hout := sp.inRange_or_outOfRange n
    · obtain ⟨t, ht⟩ := muxSet_of_inRange hin v s
      cases (hostCall_set ht).symm.trans h
    · cases (hostCall_set_of_outOfRange hout v s).symm.trans h
      exact .inl ⟨sp, n, rfl, .inr ⟨v, rfl⟩, hout⟩
  | push w =>
    by_cases hfull : s.env.params.stackDepth = some s.stack.length
    · cases (hostCall_push_of_full hfull).symm.trans h
      exact .inr ⟨w, rfl, rfl, hfull⟩
    · cases (hostCall_push_of_not_full hfull).symm.trans h
  | _ => cases h

end Mux

section Calls

variable {c : HostCall} {s t : State} {a : HostAnswer} {f : Fault}

theorem hostStep_of_ok (h : hostCall c s = .ok (a, t)) : hostStep c s = .next t := by
  simp only [hostStep, h, done]

theorem hostStep_of_error (h : hostCall c s = .error f) : hostStep c s = .fault f := by
  simp only [hostStep, h, raise]

theorem hostStep_fault (h : hostStep c s = .fault f) : hostCall c s = .error f := by
  cases hc : hostCall c s with
  | ok r => cases (hostStep_of_ok hc).symm.trans h
  | error f' => cases (hostStep_of_error hc).symm.trans h; rfl

theorem hostStep_ne_refused (c : HostCall) (s : State) (r : Refusal) : hostStep c s ≠ .refused r := by
  intro h
  cases hc : hostCall c s with
  | ok r => cases (hostStep_of_ok hc).symm.trans h
  | error f => cases (hostStep_of_error hc).symm.trans h

/-- A scheduled host call that succeeds is the step. -/
theorem step_host_ok {ts : List Turn} (hturns : s.env.turns = .host c :: ts)
    (h : hostCall c (s.setTurns ts) = .ok (a, t)) : step s = .next t :=
  (step_host s c ts hturns).trans (hostStep_of_ok h)

/-- A scheduled host call that fails stops the step. -/
theorem step_host_error {ts : List Turn} (hturns : s.env.turns = .host c :: ts)
    (h : hostCall c (s.setTurns ts) = .error f) : step s = .fault f :=
  (step_host s c ts hturns).trans (hostStep_of_error h)

/-! ### The invariant (10 R20) -/

/-- The invariant reads memory, stack and parameters alone. -/
theorem State.Inv.congr (hs : s.Inv) (hmem : t.mem = s.mem) (hstack : t.stack = s.stack)
    (hparams : t.env.params = s.env.params) : t.Inv := by
  obtain ⟨hwf, hbound⟩ := hs
  exact ⟨hmem ▸ hwf, (s.stackBounded_congr t hstack hparams).trans hbound⟩

theorem State.Inv.push (hs : s.Inv) (hfull : s.stackFull = false) (w : Word) : (s.push w).Inv := by
  obtain ⟨hwf, hbound⟩ := hs
  exact ⟨hwf, s.push_bounded w hbound hfull⟩

theorem State.Inv.dropTop (hs : s.Inv) : s.dropTop.Inv := by
  obtain ⟨hwf, hbound⟩ := hs
  exact ⟨hwf, s.dropTop_bounded hbound⟩

theorem State.Inv.of_muxSet {sp : Space} {n : Nat} {v : Byte} (hs : s.Inv) (h : muxSet sp n v s = .ok t) : t.Inv := by
  obtain ⟨-, -, rfl⟩ | ⟨-, hn, rfl⟩ := muxSet_ok sp n v s t h
  · exact hs.congr rfl rfl rfl
  · obtain ⟨hwf, hbound⟩ := hs
    exact ⟨Memory.wf_write s.mem n v hn hwf, hbound⟩

/-- No instruction writes memory; Call pushes only where there is room, and Ret pops. -/
theorem State.Inv.of_instrEffect {i : Instr} (hs : s.Inv) (h : InstrEffect s i t) : t.Inv := by
  cases h with
  | call nnn pc hfull => exact (hs.push hfull s.pc).congr rfl rfl rfl
  | ret pc => exact hs.dropTop.congr rfl rfl rfl
  | _ => exact hs.congr rfl rfl rfl

/-- Set, Push and Pop are the host calls that write memory or stack. -/
theorem State.Inv.of_hostCall (hs : s.Inv) (h : hostCall c s = .ok (a, t)) : t.Inv := by
  cases c with
  | get sp n =>
    obtain hin | hout := sp.inRange_or_outOfRange n
    · obtain ⟨b, hb⟩ := muxGet_of_inRange hin s
      cases (hostCall_get hb).symm.trans h
      exact hs
    · cases (hostCall_get_of_outOfRange hout s).symm.trans h
  | set sp n v =>
    obtain hin | hout := sp.inRange_or_outOfRange n
    · obtain ⟨u, hu⟩ := muxSet_of_inRange hin v s
      cases (hostCall_set hu).symm.trans h
      exact hs.of_muxSet hu
    · cases (hostCall_set_of_outOfRange hout v s).symm.trans h
  | push w =>
    by_cases hfull : s.env.params.stackDepth = some s.stack.length
    · cases (hostCall_push_of_full hfull).symm.trans h
    · cases (hostCall_push_of_not_full hfull).symm.trans h
      exact hs.push (Bool.eq_false_iff.2 (mt (State.stackFull_iff s).1 hfull)) w
  | pop =>
    cases hstack : s.stack with
    | nil => cases (hostCall_pop_of_nil hstack).symm.trans h; exact hs
    | cons r rest => cases (hostCall_pop_of_cons hstack).symm.trans h; exact hs.dropTop
  | _ => cases h; exact hs.congr rfl rfl rfl

end Calls

end Sys2Proof.Machine

namespace Sys2Proof

open Machine

/-! ### What every step keeps -/

/-- Settles O38: the driver's step does what one instruction can do, the host's what one call does, and both keep the
invariant. -/
theorem everyStepKeepsMemoryAndStackInvariant : Obligations.EveryStepKeepsMemoryAndStackInvariant := by
  intro s t hs h
  have hspent : s.turnSpent.Inv := hs.congr rfl rfl rfl
  obtain ⟨i, heff⟩ | ⟨c, a, hc⟩ := step_next_cases h
  · exact (hspent.congr (t := s.turnSpent.advance) rfl rfl rfl).of_instrEffect heff
  · exact hspent.of_hostCall hc

/-- Settles O42: what runs after the turn is spent leaves parameters and schedule alone. -/
theorem stepsKeepParametersAndSpendOneTurn : Obligations.StepsKeepParametersAndSpendOneTurn := by
  intro s t h
  obtain ⟨i, heff⟩ | ⟨c, a, hc⟩ := step_next_cases h
  · exact ⟨heff.params_eq, heff.turns_eq⟩
  · exact hostCall_env c s.turnSpent t a hc

/-- Settles O40: Ldi loads an address, and no other instruction writes I. -/
theorem instructionStepsKeepIndexTwelveBits : Obligations.InstructionStepsKeepIndexTwelveBits := by
  intro s t hd hI h
  obtain ⟨i, heff⟩ := step_driver_effect hd h
  cases heff with
  | index nnn => exact indexIsAddress_setI_operandAddr _ nnn
  | _ => exact hI

/-- Settles O41. -/
theorem instructionStepsWriteNeitherMemoryNorSoundTimer :
    Obligations.InstructionStepsWriteNeitherMemoryNorSoundTimer := by
  intro s t hd h
  obtain ⟨i, heff⟩ := step_driver_effect hd h
  exact ⟨fun a => congrArg (Memory.read · a) heff.mem_eq, heff.mem_eq, heff.ST_eq⟩

/-! ### What a step runs -/

/-- Settles O7. -/
theorem stepRunsTheDecodedInstruction : Obligations.StepRunsTheDecodedInstruction := by
  intro s i hd hdec
  rw [decodeBytes, ← s.fetch_eq_of_bytes] at hdec
  exact (step_driver s hd).trans (driverStep_of_instr hdec)

/-- Settles O8. -/
theorem stepReportsUnknownWord : Obligations.StepReportsUnknownWord :=
  fun s _ hd hdec => (step_driver s hd).trans (driverStep_of_unknown hdec)

/-- Settles O9. -/
theorem fetchIsBigEndianAtMaskedAddresses : Obligations.FetchIsBigEndianAtMaskedAddresses := by
  intro s
  rw [s.fetch_eq_of_bytes, wordOfBytes_toNat]

/-- Settles O10: the driver moves, and fetches the word placed. -/
theorem placedWordIsRunByTheNextStep : Obligations.PlacedWordIsRunByTheNextStep := by
  intro s nbits w i h
  obtain ⟨ts, hts, hspent⟩ := turnSpent_withDriverNext (s.placeWord (tableWord nbits w))
  have hfetch : ((s.placeWord (tableWord nbits w)).setTurns ts).fetch = tableWord nbits w := by simp
  refine ⟨ts, hts, ?_⟩
  rw [State.withFetchWord, step_driver _ (State.withDriverNext_driverMoves _), hspent,
    driverStep_of_instr (hfetch.symm ▸ decode_of_decodeTableWord h)]
  rfl

/-- Settles O48: the word at pc = 0 of a zeroed memory is 0000, which is Sys(0). -/
theorem freshMachineStopsOnSys : Obligations.FreshMachineStopsOnSys := by
  have hdec : decode State.reset.fetch = .instr (.sys 0x000#12) := by decide
  rw [Obligations.FreshMachineStopsOnSys, step_driver State.reset (fun c ts => by simp [State.reset, State.construct]),
    driverStep_of_instr (s := State.reset.turnSpent) hdec, exec_sys]

/-! ### Why a step stops -/

/-- Settles O34: neither an instruction nor a host call is refused. -/
theorem stepNeverRefuses : Obligations.StepNeverRefuses := by
  intro s r h
  obtain ⟨-, hs⟩ | ⟨c, ts, -, hs⟩ := step_cases s
  · exact driverStep_ne_refused _ r (hs.symm.trans h)
  · exact hostStep_ne_refused c _ r (hs.symm.trans h)

/-- Settles O35: the driver stops at an Unknown word or where its instruction stops, the host where its call fails. -/
theorem everyStopHasItsListedCause : Obligations.EveryStopHasItsListedCause := by
  intro s f h
  obtain ⟨hd, hs⟩ | ⟨c, ts, hturns, hs⟩ := step_cases s
  case inl =>
    obtain ⟨op, hdec, rfl⟩ | ⟨i, hdec, hexec⟩ := driverStep_fault (hs.symm.trans h)
    · obtain ⟨rfl, -⟩ := (unknownWordsAreExactlyTheListedOnes _ op).1 hdec
      exact .inl ⟨hd, rfl, hdec, rfl⟩
    · refine .inr ?_
      obtain ⟨rfl, hi⟩ | ⟨nnn, rfl, hfull, rfl⟩ | ⟨rfl, hstack, hp, rfl⟩ := exec_fault_cause hexec
      · exact .inl ⟨hd, rfl, i, hdec, rfl, hi⟩
      · exact .inr (.inl ⟨hd, rfl, ⟨nnn, hdec⟩, hfull, rfl⟩)
      · exact .inr (.inr (.inl ⟨hd, rfl, hdec, hstack, hp, rfl⟩))
  case inr =>
    refine .inr (.inr (.inr (.inr ?_)))
    obtain ⟨sp, n, rfl, hc, hout⟩ | ⟨w, rfl, rfl, hfull⟩ := hostCall_error (hostStep_fault (hs.symm.trans h))
    · refine .inl ⟨rfl, sp, n, ts, rfl, ?_, hout⟩
      obtain rfl | ⟨v, rfl⟩ := hc
      · exact .inl hturns
      · exact .inr ⟨v, hturns⟩
    · exact .inr ⟨rfl, w, ts, rfl, hturns, hfull⟩

/-- Settles O43: the mux refuses a bad index of either space; and a stop with IndexOutOfRange has a host call as its
cause, by O35. -/
theorem badIndexStopsHostCallsOnly : Obligations.BadIndexStopsHostCallsOnly := by
  refine ⟨fun s n v ts hn => ⟨fun hturns => ?_, fun hturns => ?_⟩,
    fun s n v ts hn => ⟨fun hturns => ?_, fun hturns => ?_⟩, fun s sp n hd h => ?driver⟩
  · exact step_host_error hturns (hostCall_set_of_outOfRange (.inr ⟨rfl, hn⟩) v _)
  · exact step_host_error hturns (hostCall_get_of_outOfRange (.inr ⟨rfl, hn⟩) _)
  · exact step_host_error hturns (hostCall_set_of_outOfRange (.inl ⟨rfl, hn⟩) v _)
  · exact step_host_error hturns (hostCall_get_of_outOfRange (.inl ⟨rfl, hn⟩) _)
  case driver =>
    obtain ⟨-, hcode, -⟩ | ⟨-, hcode, -⟩ | ⟨-, hcode, -⟩ | ⟨-, hcode, -⟩ | ⟨-, sp', n', ts, -, hturns, -⟩ |
      ⟨hcode, -⟩ := everyStopHasItsListedCause s _ h
    case inr.inr.inr.inr.inl =>
      obtain hget | ⟨v, hset⟩ := hturns
      · exact hd _ ts hget
      · exact hd _ ts hset
    all_goals cases hcode

/-! ### The host's paths -/

/-- Settles O44: by what the mux gives after a Set; registers and memory are its only two spaces. -/
theorem hostSetReadsBackAndTouchesNothingElse : Obligations.HostSetReadsBackAndTouchesNothingElse := by
  intro s sp n v ts hin hturns
  obtain ⟨t, hset⟩ := muxSet_of_inRange hin v (s.setTurns ts)
  refine ⟨t, step_host_ok hturns (hostCall_set hset), hostCall_get (muxGet_muxSet_same hset), fun sp' m hne => ?_, ?_⟩
  · rw [muxGet_muxSet_other hset hne, muxGet_setTurns]
  · obtain ⟨-, -, rfl⟩ | ⟨-, -, rfl⟩ := muxSet_ok sp n v _ t hset
    · exact ⟨rfl, rfl, rfl, rfl, rfl, rfl⟩
    · exact ⟨rfl, rfl, rfl, rfl, rfl, rfl⟩

/-- Pop's effect on the stack, whether or not there is an entry to pop. -/
theorem hostCall_pop_eq (s : State) : ∃ a, hostCall .pop s = .ok (a, s.setStack s.stack.tail) := by
  cases hstack : s.stack with
  | nil => exact ⟨.none, (hostCall_pop_of_nil hstack).trans (by rw [List.tail_nil, ← hstack]; rfl)⟩
  | cons r rest => exact ⟨.word r, (hostCall_pop_of_cons hstack).trans (by rw [State.dropTop, hstack])⟩

/-- Settles O45: each path's call, evaluated, is the step where it is scheduled. -/
theorem hostPathsActOnTheirOwnState : Obligations.HostPathsActOnTheirOwnState := by
  intro s ts w b
  refine ⟨fun h => step_host_ok h rfl, fun h => step_host_ok h rfl, fun h => step_host_ok h rfl,
    fun h => step_host_ok h rfl, fun h => step_host_ok h rfl, fun h => step_host_ok h rfl,
    fun h => step_host_ok h rfl,
    fun h hfull => step_host_ok h (hostCall_push_of_not_full (s := s.setTurns ts) hfull),
    fun h hfull => step_host_error h (hostCall_push_of_full (s := s.setTurns ts) hfull),
    fun h => ?pop, fun h => step_host_ok h rfl, fun sp n hin h => ?get,
    fun j => hostCall_get (muxGet_reg s j), fun a ha => hostCall_get (if_pos ha), fun r rest h => ?popTop,
    fun h => hostCall_pop_of_nil h, rfl, rfl, rfl⟩
  case pop =>
    obtain ⟨a, ha⟩ := hostCall_pop_eq (s.setTurns ts)
    exact step_host_ok h ha
  case get =>
    obtain ⟨v, hv⟩ := muxGet_of_inRange hin (s.setTurns ts)
    exact step_host_ok h (hostCall_get hv)
  case popTop => rw [hostCall_pop_of_cons h, State.dropTop, h, List.tail_cons]

end Sys2Proof
end

section
/-! Construction (10_state.md R31, R32), and runs of several host calls: timer ticks (60_exceptions.md R213,
70_reset_and_hazards.md R246) and booting (70_reset_and_hazards.md R242). -/

namespace Sys2Proof.Machine

/-! ### Construction (10 R31, R32) -/

/-- R31: every register is 0. -/
@[simp] theorem State.construct_reg (p : Config.Params) (j : RegIdx) : (State.construct p).reg j = 0x00#8 := by
  simp only [State.reg, State.construct, Vector.getElem_replicate]

/-- The empty stack is within every bound. -/
theorem State.seeded_bounded (p : Config.Params) (V : Vector Byte 16) : (State.seeded p V).stackBounded = true := by
  unfold State.stackBounded
  split
  · exact decide_eq_true (Nat.zero_le _)
  · rfl

theorem State.seeded_inv (p : Config.Params) (V : Vector Byte 16) : (State.seeded p V).Inv :=
  ⟨Memory.wf_nil, State.seeded_bounded p V⟩

theorem State.seeded_indexIsAddress (p : Config.Params) (V : Vector Byte 16) : (State.seeded p V).indexIsAddress := by
  show (0x0000#16).toNat < 4096
  decide

/-! ### Ticks (60 R213) -/

/-- A scheduled tick is the step. -/
theorem step_timerTick {s : State} {ts : List Turn} (h : s.env.turns = .host .timerTick :: ts) :
    step s = .next (s.setTurns ts).timerTick :=
  step_host_ok h rfl

/-- What `k` ticks do: each timer is lowered by `k` and stops at 0, the schedule is `ts`, the rest is as before. -/
def Ticked (k : Nat) (ts : List Turn) (s t : State) : Prop :=
  t.DT.toNat = s.DT.toNat - k ∧ t.ST.toNat = s.ST.toNat - k ∧ (∀ j, t.reg j = s.reg j) ∧ t.pc = s.pc ∧
    t.I = s.I ∧ t.stack = s.stack ∧ MemSame s t ∧ t.env = { s.env with turns := ts }

/-- `k` ticks after one tick are `k + 1` ticks. -/
theorem Ticked.cons {k : Nat} {ts us : List Turn} {s t : State} (h : Ticked k ts (s.setTurns us).timerTick t) :
    Ticked (k + 1) ts s t := by
  obtain ⟨hDT, hST, hrest⟩ := h
  rw [State.timerTick_DT, tickDown_toNat, State.setTurns_DT] at hDT
  rw [State.timerTick_ST, tickDown_toNat, State.setTurns_ST] at hST
  exact ⟨by omega, by omega, hrest⟩

theorem run_ticks (k : Nat) (ts : List Turn) (s : State)
    (h : s.env.turns = List.replicate k (.host .timerTick) ++ ts) : ∃ t, run k s = .next t ∧ Ticked k ts s t := by
  induction k generalizing s with
  | zero =>
    have hts : s.env.turns = ts := h
    exact ⟨s, rfl, rfl, rfl, fun _ => rfl, rfl, rfl, rfl, fun _ => rfl, by rw [← hts]⟩
  | succ k ih =>
    rw [List.replicate_succ, List.cons_append] at h
    obtain ⟨t, hrun, ht⟩ := ih (s.setTurns (List.replicate k (.host .timerTick) ++ ts)).timerTick rfl
    exact ⟨t, (run_succ k s _ (step_timerTick h)).trans hrun, ht.cons⟩

/-! ### Loading (70 R242) -/

/-- Memory with the bytes `bs` written from address `a` up. -/
def Memory.writeBytes (m : Memory) (a : Nat) : List Byte → Memory
  | [] => m
  | b :: bs => Memory.writeBytes (m.write a b) (a + 1) bs

/-- The loader's calls, run as steps, write the bytes and nothing else. -/
theorem run_loadCalls (bs : List Byte) (a : Nat) (ts : List Turn) (s : State) (hfit : a + bs.length ≤ memSize)
    (h : s.env.turns = loadCalls a bs ++ ts) :
    run bs.length s = .next ((s.setMem (s.mem.writeBytes a bs)).setTurns ts) := by
  induction bs generalizing a s with
  | nil =>
    have hts : s.env.turns = ts := h
    rw [← hts]
    rfl
  | cons b bs ih =>
    rw [List.length_cons] at hfit
    have hin : Space.mem.InRange a := .inr ⟨rfl, show a < memSize by omega⟩
    have hset : muxSet .mem a b (s.setTurns (loadCalls (a + 1) bs ++ ts)) =
        .ok ((s.setTurns (loadCalls (a + 1) bs ++ ts)).setMem (s.mem.write a b)) :=
      if_pos (show a < memSize by omega)
    exact (run_succ bs.length s _ (step_host_ok h (hostCall_set hset))).trans
      (ih (a + 1) _ (show a + 1 + bs.length ≤ memSize by omega) rfl)

/-- What memory holds after the load: the bytes, each at its address, and elsewhere what it held. -/
theorem Memory.read_writeBytes (bs : List Byte) (m : Memory) (a b : Nat) : (m.writeBytes a bs).read b =
    if a ≤ b ∧ b < a + bs.length then bs.getD (b - a) 0x00#8 else m.read b := by
  induction bs generalizing m a with
  | nil => exact (if_neg (show ¬(a ≤ b ∧ b < a + 0) by omega)).symm
  | cons v bs ih =>
    rw [Memory.writeBytes, ih, Memory.read_write, List.length_cons]
    obtain hlt | rfl | hgt := Nat.lt_trichotomy b a
    · rw [if_neg (by omega), if_neg (by omega), if_neg (by omega)]
    · rw [if_neg (by omega), if_pos rfl, if_pos (by omega), Nat.sub_self, List.getD_cons_zero]
    · have hsucc : b - a = b - (a + 1) + 1 := by omega
      have hcond : (a + 1 ≤ b ∧ b < a + 1 + bs.length) ↔ (a ≤ b ∧ b < a + (bs.length + 1)) := by omega
      rw [hsucc, List.getD_cons_succ, if_neg (show b ≠ a by omega)]
      simp only [hcond]

/-- The machine after it has booted with `rom`. -/
def State.booted (p : Config.Params) (rom : List Byte) : State :=
  ((State.construct p).setMem (Memory.writeBytes [] Config.loadBase.toNat rom)).setPC Config.loadBase

/-- R242: the loader's calls, then SetPC. -/
theorem run_booting (p : Config.Params) (rom : List Byte) (hfit : rom.length ≤ 4096 - 0x200) :
    run (rom.length + 1) (State.booting p rom) = .next (State.booted p rom) := by
  have hload := run_loadCalls rom Config.loadBase.toNat [.host (.setPC Config.loadBase)] (State.booting p rom)
    (show 0x200 + rom.length ≤ 4096 by omega) rfl
  rw [run_add rom.length 1 _ _ hload]
  exact run_succ 0 _ _ (step_host_ok (ts := []) rfl rfl)

end Sys2Proof.Machine

namespace Sys2Proof

open Machine

/-- Settles O39. -/
theorem constructionsMeetTheInvariant : Obligations.ConstructionsMeetTheInvariant :=
  ⟨State.seeded_inv _ _, State.seeded_indexIsAddress _ State.reset.V,
    fun p V => ⟨State.seeded_inv p V, State.seeded_indexIsAddress p V⟩⟩

/-- Settles O46. -/
theorem resetHoldsZeroEverywhere : Obligations.ResetHoldsZeroEverywhere :=
  ⟨State.construct_reg _, rfl, rfl, rfl, rfl, rfl, Memory.read_nil, rfl, rfl⟩

/-- Settles O47. -/
theorem seededConstructionDiffersInRegistersOnly : Obligations.SeededConstructionDiffersInRegistersOnly :=
  fun _ _ => ⟨fun _ => rfl, rfl, rfl, rfl, rfl, rfl, rfl, rfl⟩

/-- Settles O30. -/
theorem ticksLowerBothTimersToZero : Obligations.TicksLowerBothTimersToZero :=
  run_ticks

/-- Settles O31: the ticks start from DT = V[a]. -/
theorem delayReadBackIsLoweredByTicks : Obligations.DelayReadBackIsLoweredByTicks := by
  intro a b k ts s h
  obtain ⟨u, hrun, hDT, -⟩ := run_ticks k ts (s.setDT (s.reg a)) h
  refine ⟨s.setDT (s.reg a), u, u.setReg b u.DT, exec_ldDelayVx a s, hrun, exec_ldVxDelay b u, ?_⟩
  rw [u.reg_setReg_same, hDT, State.setDT_DT]

/-- Settles O49: the run ends in `State.booted`, whose memory is the program over a zeroed one. -/
theorem bootLoadsProgramAndSetsPC : Obligations.BootLoadsProgramAndSetsPC :=
  fun p rom hfit => ⟨State.booted p rom, run_booting p rom hfit, Memory.read_writeBytes rom [] 0x200, rfl,
    State.construct_reg p, rfl, rfl, rfl, rfl, rfl⟩

end Sys2Proof
end
